-- ==== Sys2Proof/Word.lean ====
section
/-! DEFINITION. The words of the PRESENT-80 bit-sliced core, by width (spec 00_scope.md R6, R11, R12; 20_memory.md R50).
Every value is an unsigned bit vector (R12); no arithmetic is defined here. -/

namespace Sys2Proof

/-- A 32-bit bus word: what one transaction moves (R50), and the form of a command, CMD32 (R81). -/
abbrev Word := BitVec 32

/-- A bit-plane: bit `i` of plane `j` is bit `j` of lane `i` (R11). -/
abbrev Plane := BitVec 32

/-- One byte of the input or output buffer (R31, R32). -/
abbrev Byte := BitVec 8

/-- Four consecutive bits of a block, or the top of the key register: the S-box's argument (R120). -/
abbrev Nibble := BitVec 4

/-- A 64-bit block; bit `j` has weight `2^j` (R9). Also the round key's width (R24). -/
abbrev Block := BitVec 64

/-- The 80-bit key register's width; byte `i` is bits `8i+7` down to `8i` (R10). -/
abbrev Key := BitVec 80

/-- A 5-bit round number (R25, R84). -/
abbrev Round := BitVec 5

/-- A byte offset in the 4 KiB register window, 0x000 to 0xFFF (R50). Only multiples of 4 spell an access (R64). -/
abbrev Offset := BitVec 12

end Sys2Proof
end

