-- ==== Sys2Proof/Config.lean ====
section
/-! DEFINITION. What is fixed for one CORE, and what the spec leaves open.

The fixed parameters of R6 (LANES 32, BLOCK_BITS 64, PLANES 64, PLANE_BITS 32, KEY_BITS 80, ROUND_KEY_BITS 64, RC_BITS 5,
NIBBLES 16, BUFFER_BYTES 256) and of R7 (BUS_DATA_BITS 32, and byte offsets 0x000 to 0xFFC) are the widths in Word.lean and the
sizes of State's fields. ROUNDS is `Config.rounds`. None of them is configurable (R43). STEP_CYCLES of R7 is timing, and the model
has no time (R263).

The constants without a body are open: nothing proves a value of them, so a claim that mentions one holds whatever it is. -/

namespace Sys2Proof.Config

/-- ROUNDS: the number of full rounds before the final mix (R6). -/
def rounds : Round := 31

/-- CORE_BASE: the window's base in the host's address space, OPEN (R52, D3). Log entry 7. -/
opaque coreBase : Nat

/-- Plane `j` of S after reset event number `event`: unspecified (R251, U1). Log entry 5. -/
opaque drawPlane (event j : Nat) : Plane

/-- K after reset event number `event`: unspecified (R251, U1). Log entry 5. -/
opaque drawKey (event : Nat) : Key

/-- KEYIN after reset event number `event`: unspecified (R251, U1). Log entry 5. -/
opaque drawKeyin (event : Nat) : Key

/-- Byte `b` of DIN after reset event number `event`: unspecified (R251, U1). Log entry 5. -/
opaque drawDin (event b : Nat) : Byte

/-- Byte `b` of DOUT after reset event number `event`: unspecified (R251, U1). Log entry 5. -/
opaque drawDout (event b : Nat) : Byte

end Sys2Proof.Config
end

