-- ==== Sys2Proof/Syntax.lean ====
section
/-! DEFINITION. The commands of the CORE, one constructor per row of spec/opcode_table.json (30_encoding.md R83). -/

namespace Sys2Proof

/-- A command. The only operand any command has is KADV's round number, five bits read as written (R84); every other command
takes its inputs from fixed state. -/
inductive Instr where
  /-- NOP: no operation (R191). -/
  | nop
  /-- START: begin one encryption of the 32 lanes of DIN under KEYIN (R192). -/
  | start
  /-- LOAD: transpose the input buffer into the state (R104). -/
  | load
  /-- UNLOAD: transpose the state into the output buffer (R105). -/
  | unload
  /-- LDKEY: load the key register from the key input (R166). -/
  | ldkey
  /-- MIX: XOR the current round key into every lane (R182). -/
  | mix
  /-- SUB: apply the S-box layer to the state (R125). -/
  | sub
  /-- PERM: apply the bit permutation to the state (R144). -/
  | perm
  /-- KADV r: advance the key register once, with round number r (R167). -/
  | kadv (r : Round)
  deriving DecidableEq, Repr

end Sys2Proof
end

