-- ==== Sys2Proof/WellFormed.lean ====
section
/-! DEFINITION. Which commands, command words and bus offsets are well formed (30_encoding.md R84, R86; 20_memory.md R64).
The legal words stand here as the list R86 gives, apart from the decoder, which checks fields (R85). -/

namespace Sys2Proof

/-- A command is well formed when its operand fits its field. KADV's r is five bits wide by its type (R84), so every command
is. -/
def Instr.wf : Instr → Bool
  | .nop => true
  | .start => true
  | .load => true
  | .unload => true
  | .ldkey => true
  | .mix => true
  | .sub => true
  | .perm => true
  | .kadv r => decide (r.toNat < 32)

/-- "Legal words are 0x00000000 to 0x00000007, and 0x00000008 + (r << 8) for r in 0..31, which is 40 words in all" (R86). -/
def legalWords : List Word :=
  (List.range 8).map (BitVec.ofNat 32) ++ (List.range 32).map (fun r => 8 + (BitVec.ofNat 32 r <<< 8))

/-- A word is a legal command (R86). -/
def legalWord (w : Word) : Bool := legalWords.contains w

/-- An offset spells an access: it is a multiple of 4, because the bus carries a word address (R50, R64). -/
def Offset.spellsAccess (off : Offset) : Bool := off.toNat % 4 == 0

end Sys2Proof
end

