-- ==== Sys2Proof/Decode.lean ====
section
/-! DEFINITION. The command decoder, total on every 32-bit word and rejecting by name, and the encoder (30_encoding.md
R81 to R86). A command is one 32-bit bus word, so no byte order enters here. -/

namespace Sys2Proof

/-- OP, bits 3:0 (R82). -/
def opField (w : Word) : Nibble := w.extractLsb' 0 4

/-- RSVA, bits 7:4, reserved (R82). -/
def rsvaField (w : Word) : Nibble := w.extractLsb' 4 4

/-- R, bits 12:8, KADV's round number (R82, R84). -/
def roundField (w : Word) : Round := w.extractLsb' 8 5

/-- RSVB, bits 31:13, reserved (R82). -/
def rsvbField (w : Word) : BitVec 19 := w.extractLsb' 13 19

/-- Why a word is no command (R85). -/
inductive Reject where
  /-- OP in 0x9..0xF. -/
  | illegalOp
  /-- A legal OP with a nonzero reserved field. -/
  | reservedBits
  deriving DecidableEq, Repr

/-- What the decoder answers. -/
inductive Decoded where
  | command (i : Instr)
  | rejected (why : Reject)
  deriving DecidableEq, Repr

/-- Some reserved field of the word is not zero: RSVB, RSVA, or R when OP is not KADV (R82, R85). -/
def reservedBitsSet (w : Word) : Bool :=
  rsvbField w != 0 || rsvaField w != 0 || (opField w != 8 && roundField w != 0)

/-- The opcode map (R83). It is reached only for OP 0x0 to 0x8. -/
def instrOf (op : Nibble) (r : Round) : Instr :=
  match op.toNat with
  | 0 => .nop
  | 1 => .start
  | 2 => .load
  | 3 => .unload
  | 4 => .ldkey
  | 5 => .mix
  | 6 => .sub
  | 7 => .perm
  | _ => .kadv r

/-- The first two checks of a CMD write, in R85's order. The BUSY check is the command's own (R87). -/
def decode (w : Word) : Decoded :=
  if 9 ≤ (opField w).toNat then .rejected .illegalOp
  else if reservedBitsSet w then .rejected .reservedBits
  else .command (instrOf (opField w) (roundField w))

/-- The word of a command (R83). -/
def encode : Instr → Word
  | .nop => 0x00000000
  | .start => 0x00000001
  | .load => 0x00000002
  | .unload => 0x00000003
  | .ldkey => 0x00000004
  | .mix => 0x00000005
  | .sub => 0x00000006
  | .perm => 0x00000007
  | .kadv r => 0x00000008 ||| (r.setWidth 32 <<< 8)

/-- What the decoder reads from a row's bits, numbered as spec/opcode_table.json numbers them. Every command is one 32-bit word
(R81); bits above `nbits` are zero. -/
def decodeTableWord (nbits w : Nat) : Option Instr :=
  if w % 2 ^ nbits < 2 ^ 32 then
    match decode (BitVec.ofNat 32 (w % 2 ^ nbits)) with
    | .command i => some i
    | .rejected _ => none
  else none

end Sys2Proof
end

