-- ==== Sys2Proof/Machine/Arr.lean ====
section
/-! DEFINITION. Arrays of a fixed length, the form of the plane array and of the two byte buffers. An array is a list with its
length proved once, so that two arrays are compared and indexed by Lean's kernel in linear time. -/

namespace Sys2Proof.Machine

/-- An array of exactly `n` cells. -/
structure Arr (α : Type) (n : Nat) where
  cells : List α
  size_eq : cells.length = n
  deriving DecidableEq, Repr

/-- The `i`-th entry of a list, `d` beyond its end. -/
def nth {α : Type} (d : α) : List α → Nat → α
  | [], _ => d
  | x :: _, 0 => x
  | _ :: l, i + 1 => nth d l i

/-- Cell `i` of an array. Every index the rules use is in range (R13); beyond it this is the type's default. -/
def Arr.get {α : Type} {n : Nat} [Inhabited α] (a : Arr α n) (i : Nat) : α := nth default a.cells i

/-- `[f k, f (k+1), …]`, `n` entries. -/
def tabFrom {α : Type} (f : Nat → α) : Nat → Nat → List α
  | _, 0 => []
  | k, n + 1 => f k :: tabFrom f (k + 1) n

theorem tabFrom_length {α : Type} (f : Nat → α) (k n : Nat) : (tabFrom f k n).length = n := by
  induction n generalizing k with
  | zero => rfl
  | succ n ih => simp [tabFrom, ih]

/-- The array whose cell `i` is `f i`: all cells are written at once, each from `f` (R12's `S <- T`). -/
def Arr.tab {α : Type} (n : Nat) (f : Nat → α) : Arr α n := ⟨tabFrom f 0 n, tabFrom_length f 0 n⟩

/-- The number whose bit `i` is `f i`, for `i` below `n`. -/
def bitsNat : Nat → (Nat → Bool) → Nat
  | 0, _ => 0
  | n + 1, f => bitsNat n f + (bif f n then 2 ^ n else 0)

/-- The `n`-bit vector whose bit `i` is `f i`. -/
def bits (n : Nat) (f : Nat → Bool) : BitVec n := BitVec.ofNat n (bitsNat n f)

end Sys2Proof.Machine
end

