-- ==== Sys2Proof/Machine/State.lean ====
section
/-! DEFINITION. The state of the CORE (spec 10_state.md, section 1 table), with what stands for its surroundings: the host's
program, the order in which agents act, and the word the last read answered. -/

namespace Sys2Proof.Machine

/-- The engine state fsm (R27). -/
inductive Fsm where
  /-- No encryption since reset. -/
  | idle
  /-- Round number RC is the next to run. -/
  | round
  /-- The final mix is the next to run. -/
  | final
  /-- The last encryption has finished. -/
  | done
  deriving DecidableEq, Repr

/-- The causes of an interface error (R221). They are recorded in STATUS, they stop nothing (R225). -/
inductive Cause where
  | cmdIllegalOp
  | cmdReservedBits
  | cmdBusy
  | busUnmapped
  | busWriteRo
  deriving DecidableEq, Repr

/-- What the host does next, in R88's notation. -/
inductive HostOp where
  /-- `rd OFF`: one bus read. -/
  | rd (off : Offset)
  /-- `wr OFF, VAL`: one bus write. -/
  | wr (off : Offset) (v : Word)
  /-- `poll OFF, MASK, VAL`: read OFF again until (value and MASK) is VAL. -/
  | poll (off : Offset) (mask val : Word)
  deriving DecidableEq, Repr

/-- Whose event is next in the single total order of host transactions, core steps and reset events (R66, R250). -/
inductive Turn where
  | host
  | engine
  | reset
  deriving DecidableEq, Repr

/-- The stops of the machine with a fault: none. No rule of the spec stops the CORE (R220, R225); an interface error is recorded
in STATUS and the machine goes on. -/
inductive Fault where
  deriving DecidableEq, Repr

/-- The refusals. -/
inductive Refusal where
  /-- Raised by exec's arm for an instruction that has no meaning yet (no arm does). Safe: the machine stops. -/
  | notModelled (mnemonic : String)
  /-- Raised by a host transaction at an offset that is no multiple of 4, which the bus cannot spell (R64, U10). Safe: the machine
  stops where the hardware has no such access. -/
  | spellsNoAccess (off : Offset)
  deriving DecidableEq, Repr

/-- The bit-plane state: 64 planes (R20). -/
abbrev Planes := Arr Plane 64

/-- A 256-byte lane-major buffer: lane `i` is bytes `8i` to `8i+7` (R31, R32). -/
abbrev Buffer := Arr Byte 256

/-- The machine. The first eleven fields are the CORE's (10_state.md section 1: "No other storage exists"); the last four are the
model's own, for the CORE's surroundings (log entries 1, 3, 5). -/
structure State where
  /-- S, the bit-plane state (R20). -/
  planes : Planes
  /-- K, the key register (R23). -/
  k : Key
  /-- RC, the round counter (R25). -/
  rc : Round
  /-- fsm, the engine state (R27). -/
  fsm : Fsm
  /-- DIN, the input buffer (R31). -/
  din : Buffer
  /-- DOUT, the output buffer (R32). -/
  dout : Buffer
  /-- KEYIN, the key input register (R33). -/
  keyin : Key
  /-- CTRL.IRQEN (R35). -/
  irqen : Bool
  /-- STATUS.DONE (R37). -/
  done : Bool
  /-- STATUS.ERR (R38). -/
  err : Bool
  /-- STATUS.ECAUSE (R39). -/
  ecause : BitVec 4
  /-- The host's coming operations, in its program order (R66, R88). The model's own. -/
  hostOps : List HostOp
  /-- The coming events of the total order, as far as they are fixed (R66, R193). The model's own. -/
  order : List Turn
  /-- What the bus answered in the last step, if it was a read (R50). The model's own. -/
  reply : Option Word
  /-- How many reset events have drawn the datapath's content (R251). The model's own. -/
  draws : Nat
  deriving DecidableEq, Repr

/-- What one step or one command answers. -/
abbrev Result := Host.Outcome State Fault Refusal

/-- The machine right after reset: fsm IDLE, RC 0, DONE, ERR, ECAUSE and IRQEN 0 (R250). The datapath is not reset (R251): its zeros
here are a DESIGN CHOICE (log entry 4), and no statement rests on them. The host has nothing to do. -/
def State.reset : State where
  planes := Arr.tab 64 fun _ => 0
  k := 0
  rc := 0
  fsm := .idle
  din := Arr.tab 256 fun _ => 0
  dout := Arr.tab 256 fun _ => 0
  keyin := 0
  irqen := false
  done := false
  err := false
  ecause := 0
  hostOps := []
  order := []
  reply := none
  draws := 0

end Sys2Proof.Machine
end

