-- ==== Sys2Proof/Machine/Flags.lean ====
section
/-! DEFINITION. Flags and the registers made of them: BUSY, irq, CTRL and STATUS (10_state.md R27 to R42). -/

namespace Sys2Proof.Machine

/-- The two-bit encoding of fsm (R27). -/
def Fsm.code : Fsm → BitVec 2
  | .idle => 0
  | .round => 1
  | .final => 2
  | .done => 3

/-- The code of a cause (R221). Code 0 is NONE, and 6 to 15 are never recorded. -/
def Cause.code : Cause → BitVec 4
  | .cmdIllegalOp => 1
  | .cmdReservedBits => 2
  | .cmdBusy => 3
  | .busUnmapped => 4
  | .busWriteRo => 5

/-- `BUSY = (fsm == ROUND) or (fsm == FINAL)`, derived (R29). -/
def State.busy (s : State) : Bool :=
  match s.fsm with
  | .idle => false
  | .round => true
  | .final => true
  | .done => false

/-- The output signal `irq = IRQEN and DONE` (R42, R227). -/
def State.irq (s : State) : Bool := s.irqen && s.done

/-- A one-bit flag, zero-extended to a word. -/
def flagWord (b : Bool) : Word := (BitVec.ofBool b).setWidth 32

/-- The value a STATUS read returns (R36). -/
def State.statusWord (s : State) : Word :=
  s.rc.setWidth 32 <<< 16 ||| s.fsm.code.setWidth 32 <<< 8 ||| s.ecause.setWidth 32 <<< 4
    ||| flagWord s.irq <<< 3 ||| flagWord s.err <<< 2 ||| flagWord s.done <<< 1 ||| flagWord s.busy

/-- The value a CTRL read returns (R35). -/
def State.ctrlWord (s : State) : Word := flagWord s.irqen

/-- A CTRL write: IRQEN takes bit 0, the rest is ignored (R35). -/
def State.writeCtrl (s : State) (v : Word) : State := { s with irqen := v.getLsbD 0 }

/-- A STATUS write: write-one-to-clear of DONE (bit 1), and of ERR with ECAUSE (bit 2); all other bits are ignored (R40). -/
def State.writeStatus (s : State) (v : Word) : State :=
  { s with
    done := s.done && !v.getLsbD 1
    err := s.err && !v.getLsbD 2
    ecause := if v.getLsbD 2 then 0 else s.ecause }

end Sys2Proof.Machine
end

