-- ==== Sys2Proof/Machine/Operands.lean ====
section
/-! DEFINITION. The operands of the commands and of the bus: the views of planes, buffers and keys that the rules name. The
commands have fixed operands (R84); KADV's is in its constructor. -/

namespace Sys2Proof.Machine

/-- The lane view: `lane(S, i) = sum over j of S[j][i] * 2^j` (R21). -/
def lane (S : Planes) (i : Nat) : Block := bits 64 fun j => (S.get j).getLsbD i

/-- Word `n` of a buffer: bytes `4n` to `4n+3`, little-endian (R54, R55). -/
def bufWord (D : Buffer) (n : Nat) : Word :=
  D.get (4 * n + 3) ++ D.get (4 * n + 2) ++ D.get (4 * n + 1) ++ D.get (4 * n)

/-- A buffer with word `n` replaced: byte `4n+k` becomes bits `8k+7` to `8k` of the value (R54). -/
def setBufWord (D : Buffer) (n : Nat) (v : Word) : Buffer :=
  Arr.tab 256 fun b => if b / 4 = n then v.extractLsb' (8 * (b % 4)) 8 else D.get b

/-- Lane `i`'s 64-bit block in a buffer: word `2i` is bits 31:0, word `2i+1` is bits 63:32 (R54's lane_in, and R55). -/
def bufLane (D : Buffer) (i : Nat) : Block := bufWord D (2 * i + 1) ++ bufWord D (2 * i)

/-- The round key of a key register value: bits 79:16 (R24). -/
def roundKey (K : Key) : Block := K.extractLsb' 16 64

/-- Key word 0: bits 31:0 (R57, R58). -/
def keyWord0 (K : Key) : Word := K.extractLsb' 0 32

/-- Key word 1: bits 63:32 (R57, R58). -/
def keyWord1 (K : Key) : Word := K.extractLsb' 32 32

/-- Key word 2: bits 79:64, zero-extended (R57, R58, R59). -/
def keyWord2 (K : Key) : Word := (K.extractLsb' 64 16).setWidth 32

/-- A write of KEY0 sets bits 31:0 (R57). -/
def setKeyWord0 (K : Key) (v : Word) : Key := (K.extractLsb' 32 48 ++ v : BitVec (48 + 32))

/-- A write of KEY1 sets bits 63:32 (R57). -/
def setKeyWord1 (K : Key) (v : Word) : Key := (K.extractLsb' 64 16 ++ v ++ K.extractLsb' 0 32 : BitVec (16 + 32 + 32))

/-- A write of KEY2 sets bits 79:64 from the value's low half and ignores the rest (R57, R59). -/
def setKeyWord2 (K : Key) (v : Word) : Key := (v.extractLsb' 0 16 ++ K.extractLsb' 0 64 : BitVec (16 + 64))

end Sys2Proof.Machine
end

