-- ==== Sys2Proof/Machine/Ops.lean ====
section
/-! DEFINITION. The shared operations: recording an interface error (the CORE's only exception, 60_exceptions.md), accepting a
command only while not BUSY, and the register map with what each register reads as (20_memory.md). -/

namespace Sys2Proof.Machine

/-- `raise Error(c)`: the first error since ERR was clear is recorded; a later one is lost (R222, R39). The transaction that raised
it has no other effect. There is no trap, no saved state and no return (R225, R226): the acknowledge is `State.writeStatus`. -/
def raiseError (c : Cause) (s : State) : State :=
  if s.err then s else { s with err := true, ecause := c.code }

/-- A command other than NOP: refused with CMD_BUSY while BUSY, else its effect (R85, R87). -/
def whenNotBusy (effect : State → State) (s : State) : Result :=
  if s.busy then .next (raiseError .cmdBusy s) else .next (effect s)

/-- The mapped registers (R53). -/
inductive Reg where
  | dinw (n : Nat)
  | doutw (n : Nat)
  | plane (j : Nat)
  | key0
  | key1
  | key2
  | kreg0
  | kreg1
  | kreg2
  | ctrl
  | status
  | cmd
  deriving DecidableEq, Repr

/-- The register map (R53). `none` is an unmapped offset: 0x30C, 0x31C and 0x32C to 0xFFC. -/
def regAt (off : Offset) : Option Reg :=
  if off.toNat < 0x100 then some (.dinw (off.toNat / 4))
  else if off.toNat < 0x200 then some (.doutw ((off.toNat - 0x100) / 4))
  else if off.toNat < 0x300 then some (.plane ((off.toNat - 0x200) / 4))
  else if off = 0x300 then some .key0
  else if off = 0x304 then some .key1
  else if off = 0x308 then some .key2
  else if off = 0x310 then some .kreg0
  else if off = 0x314 then some .kreg1
  else if off = 0x318 then some .kreg2
  else if off = 0x320 then some .ctrl
  else if off = 0x324 then some .status
  else if off = 0x328 then some .cmd
  else none

/-- The offset of CMD (R53). -/
def cmdOffset : Offset := 0x328

/-- The value a register reads as (R54 to R59, R35, R36). CMD holds no state and reads 0 (R41). -/
def readReg (r : Reg) (s : State) : Word :=
  match r with
  | .dinw n => bufWord s.din n
  | .doutw n => bufWord s.dout n
  | .plane j => s.planes.get j
  | .key0 => keyWord0 s.keyin
  | .key1 => keyWord1 s.keyin
  | .key2 => keyWord2 s.keyin
  | .kreg0 => keyWord0 s.k
  | .kreg1 => keyWord1 s.k
  | .kreg2 => keyWord2 s.k
  | .ctrl => s.ctrlWord
  | .status => s.statusWord
  | .cmd => 0

end Sys2Proof.Machine
end

