-- ==== Sys2Proof/Machine/Substitution.lean ====
section
/-! DEFINITION. The Substitution Layer and SUB (41_substitution.md). -/

namespace Sys2Proof.Machine

/-- The S-box table, input nibble value to output nibble value (R120). -/
def sboxTable : List Nibble := [0xC, 0x5, 0x6, 0xB, 0x9, 0x0, 0xA, 0xD, 0x3, 0xE, 0xF, 0x8, 0x4, 0x7, 0x1, 0x2]

/-- `SBOX[x]` (R120). -/
def sbox (x : Nibble) : Nibble := nth 0 sboxTable x.toNat

/-- y0 of the circuit (R121). -/
def circuit0 (x0 x1 x2 x3 : Plane) : Plane := x0 ^^^ (x1 &&& x2) ^^^ x2 ^^^ x3

/-- y1 of the circuit (R121). -/
def circuit1 (x0 x1 x2 x3 : Plane) : Plane :=
  (x0 &&& x1 &&& x2) ^^^ (x0 &&& x1 &&& x3) ^^^ (x1 &&& x3) ^^^ x1 ^^^ (x0 &&& x2 &&& x3) ^^^ (x2 &&& x3) ^^^ x3

/-- y2 of the circuit (R121). -/
def circuit2 (x0 x1 x2 x3 : Plane) : Plane :=
  ~~~((x0 &&& x1) ^^^ (x0 &&& x1 &&& x3) ^^^ (x1 &&& x3) ^^^ x2 ^^^ (x0 &&& x3) ^^^ (x0 &&& x2 &&& x3) ^^^ x3)

/-- y3 of the circuit (R121). -/
def circuit3 (x0 x1 x2 x3 : Plane) : Plane :=
  ~~~((x0 &&& x1 &&& x2) ^^^ (x0 &&& x1 &&& x3) ^^^ (x0 &&& x2 &&& x3) ^^^ x0 ^^^ x1 ^^^ (x1 &&& x2) ^^^ x3)

/-- Output `m` (0 to 3) of the circuit (R121). -/
def circuit (m : Nat) (x0 x1 x2 x3 : Plane) : Plane :=
  match m with
  | 0 => circuit0 x0 x1 x2 x3
  | 1 => circuit1 x0 x1 x2 x3
  | 2 => circuit2 x0 x1 x2 x3
  | _ => circuit3 x0 x1 x2 x3

/-- `substitute(S)`: plane `4k + m` is output `m` of the circuit on planes `4k` to `4k+3` of the old state (R123, R124). -/
def substitute (S : Planes) : Planes :=
  Arr.tab 64 fun j =>
    circuit (j % 4) (S.get (4 * (j / 4))) (S.get (4 * (j / 4) + 1)) (S.get (4 * (j / 4) + 2)) (S.get (4 * (j / 4) + 3))

/-- SUB: `S <- substitute(S)` (R125). -/
def execSub (s : State) : Result := whenNotBusy (fun s => { s with planes := substitute s.planes }) s

end Sys2Proof.Machine
end

