-- ==== Sys2Proof/Machine/KeySchedule.lean ====
section
/-! DEFINITION. The Key Schedule, LDKEY and KADV (43_key_schedule.md). -/

namespace Sys2Proof.Machine

/-- Step 1: rotate left by 61, so bit `i` of the result is `K[(i + 19) mod 80]` (R160). -/
def rotateKey (K : Key) : Key := K.rotateLeft 61

/-- Step 2: the S-box on bits 79:76, bit 76 its least significant (R161). -/
def substituteTop (K : Key) : Key := (sbox (K.extractLsb' 76 4) ++ K.extractLsb' 0 76 : BitVec (4 + 76))

/-- Step 3: the round number XORed into bits 19:15, its bit 0 into bit 15 (R161). -/
def xorRound (K : Key) (r : Round) : Key := K ^^^ (r.setWidth 80 <<< 15)

/-- `advance(K, r)`, total for every K and every r, 0 included (R161, R163). -/
def advance (K : Key) (r : Round) : Key := xorRound (substituteTop (rotateKey K)) r

/-- LDKEY: `K <- KEYIN` (R166). -/
def execLdkey (s : State) : Result := whenNotBusy (fun s => { s with k := s.keyin }) s

/-- KADV r: `K <- advance(K, r)`, with r from the command word and never from RC (R167, R26). -/
def execKadv (r : Round) (s : State) : Result := whenNotBusy (fun s => { s with k := advance s.k r }) s

end Sys2Proof.Machine
end

