-- ==== Sys2Proof/Machine/Mixer.lean ====
section
/-! DEFINITION. The Round Key Mixer and MIX (44_mixer.md). -/

namespace Sys2Proof.Machine

/-- `mix(S, rk)`: plane `j` is XORed with all ones where bit `j` of the round key is 1 (R180). -/
def mix (S : Planes) (rk : Block) : Planes :=
  Arr.tab 64 fun j => S.get j ^^^ (if rk.getLsbD j then 0xFFFFFFFF else 0x00000000)

/-- MIX: `S <- mix(S, K[79:16])` (R182). -/
def execMix (s : State) : Result := whenNotBusy (fun s => { s with planes := mix s.planes (roundKey s.k) }) s

end Sys2Proof.Machine
end

