-- ==== Sys2Proof/Machine/Permutation.lean ====
section
/-! DEFINITION. The Permutation Layer and PERM (42_permutation.md). -/

namespace Sys2Proof.Machine

/-- `P(j) = floor(j/4) + (j mod 4)*16`: where the plane at index `j` goes (R140). -/
def permIndex (j : Nat) : Nat := j / 4 + (j % 4) * 16

/-- `Pinv(d) = 4*(d mod 16) + floor(d/16)`: the plane that index `d` receives (R141). -/
def permSource (d : Nat) : Nat := 4 * (d % 16) + d / 16

/-- `permute(S)`: `T[d] = S[Pinv(d)]`, all from the old state (R142). -/
def permute (S : Planes) : Planes := Arr.tab 64 fun d => S.get (permSource d)

/-- PERM: `S <- permute(S)` (R144). -/
def execPerm (s : State) : Result := whenNotBusy (fun s => { s with planes := permute s.planes }) s

end Sys2Proof.Machine
end

