-- ==== Sys2Proof/Machine/Transpose.lean ====
section
/-! DEFINITION. The BitPlane Transform, LOAD and UNLOAD (40_transpose.md). -/

namespace Sys2Proof.Machine

/-- `to_bitplanes(D)`: `T[j][i] = D[8*i + floor(j/8)][j mod 8]` (R100). -/
def toBitplanes (D : Buffer) : Planes :=
  Arr.tab 64 fun j => bits 32 fun i => (D.get (8 * i + j / 8)).getLsbD (j % 8)

/-- `from_bitplanes(T)`: `D[8*i + m][b] = T[8*m + b][i]`, with byte number `8*i + m` (R101). -/
def fromBitplanes (T : Planes) : Buffer :=
  Arr.tab 256 fun n => bits 8 fun b => (T.get (8 * (n % 8) + b)).getLsbD (n / 8)

/-- LOAD: `S <- to_bitplanes(DIN)` (R104). -/
def execLoad (s : State) : Result := whenNotBusy (fun s => { s with planes := toBitplanes s.din }) s

/-- UNLOAD: `DOUT <- from_bitplanes(S)`; DONE is not set (R105). -/
def execUnload (s : State) : Result := whenNotBusy (fun s => { s with dout := fromBitplanes s.planes }) s

end Sys2Proof.Machine
end

