-- ==== Sys2Proof/Machine/Control.lean ====
section
/-! DEFINITION. The Cipher Core orchestration: NOP, START and the engine's core steps (45_control.md). -/

namespace Sys2Proof.Machine

/-- NOP: no state changes, in every fsm state, BUSY included (R191). -/
def execNop (s : State) : Result := .next s

/-- START: `K <- KEYIN; S <- to_bitplanes(DIN); RC <- 1; DONE <- 0; fsm <- ROUND` (R192). -/
def execStart (s : State) : Result :=
  whenNotBusy (fun s => { s with k := s.keyin, planes := toBitplanes s.din, rc := 1, done := false, fsm := .round }) s

/-- ROUND step: round r = RC, with the round key of the old K; then the key advances, and RC or fsm does (R194). -/
def roundStep (s : State) : State :=
  { s with
    planes := permute (substitute (mix s.planes (roundKey s.k)))
    k := advance s.k s.rc
    rc := if s.rc < Config.rounds then s.rc + 1 else s.rc
    fsm := if s.rc < Config.rounds then .round else .final }

/-- FINAL step: the final mix, then DOUT, DONE and fsm; K is unchanged (R195). -/
def finalStep (s : State) : State :=
  { s with
    planes := mix s.planes (roundKey s.k)
    dout := fromBitplanes (mix s.planes (roundKey s.k))
    done := true
    fsm := .done }

/-- One core step. The engine has one exactly when BUSY (R193); otherwise nothing changes. -/
def coreStep (s : State) : State :=
  match s.fsm with
  | .idle => s
  | .round => roundStep s
  | .final => finalStep s
  | .done => s

end Sys2Proof.Machine
end

