-- ==== Sys2Proof/Machine/Dispatch.lean ====
section
/-! DEFINITION. One arm per command: the dispatch of a decoded command to its meaning. -/

namespace Sys2Proof.Machine

def exec (i : Instr) (s : State) : Host.Outcome State Fault Refusal :=
  match i with
  | .nop => Sys2Proof.Machine.execNop s
  | .start => Sys2Proof.Machine.execStart s
  | .load => Sys2Proof.Machine.execLoad s
  | .unload => Sys2Proof.Machine.execUnload s
  | .ldkey => Sys2Proof.Machine.execLdkey s
  | .mix => Sys2Proof.Machine.execMix s
  | .sub => Sys2Proof.Machine.execSub s
  | .perm => Sys2Proof.Machine.execPerm s
  | .kadv r => Sys2Proof.Machine.execKadv r s

end Sys2Proof.Machine
end

