-- ==== Sys2Proof/Machine/Command.lean ====
section
/-! DEFINITION. A CMD write: decode, check and effect inside the one transaction (30_encoding.md R80, R85). -/

namespace Sys2Proof.Machine

/-- The cause that a rejected word records (R85, R221). -/
def rejectCause : Reject → Cause
  | .illegalOp => .cmdIllegalOp
  | .reservedBits => .cmdReservedBits

/-- `execute(w)` (R85): the first failed check records its error and ends the command; the BUSY check is in the command's
meaning. -/
def runCommand (w : Word) (s : State) : Result :=
  match decode w with
  | .command i => exec i s
  | .rejected why => .next (raiseError (rejectCause why) s)

end Sys2Proof.Machine
end

