-- ==== Sys2Proof/Machine/Bus.lean ====
section
/-! DEFINITION. The host's two transactions, MemRead and MemWrite (20_memory.md), and the window's place in the host's address
space. Each is atomic and takes one step (R51). -/

namespace Sys2Proof.Machine

/-- The host address of an offset: CORE_BASE + off (R52). -/
def addressOf (off : Offset) : Nat := Config.coreBase + off.toNat

/-- The offset a host address reaches, if it lies in the 4 KiB window (R52, R53). -/
def offsetOf (address : Nat) : Option Offset :=
  if Config.coreBase ≤ address ∧ address < Config.coreBase + 0x1000 then some (BitVec.ofNat 12 (address - Config.coreBase))
  else none

/-- `MemRead(off, 4)`: the register's value, with no side effect; an unmapped read answers 0 and raises BUS_UNMAPPED (R60, R61). -/
def busRead (off : Offset) (s : State) : Result :=
  if off.toNat % 4 ≠ 0 then .refused (.spellsNoAccess off)
  else
    match regAt off with
    | some r => .next { s with reply := some (readReg r s) }
    | none => .next { raiseError .busUnmapped s with reply := some 0 }

/-- A write to a mapped register (R54 to R59, R62, R35, R40, R41). -/
def writeReg (r : Reg) (v : Word) (s : State) : Result :=
  match r with
  | .dinw n => .next { s with din := setBufWord s.din n v }
  | .doutw _ => .next (raiseError .busWriteRo s)
  | .plane _ => .next (raiseError .busWriteRo s)
  | .key0 => .next { s with keyin := setKeyWord0 s.keyin v }
  | .key1 => .next { s with keyin := setKeyWord1 s.keyin v }
  | .key2 => .next { s with keyin := setKeyWord2 s.keyin v }
  | .kreg0 => .next (raiseError .busWriteRo s)
  | .kreg1 => .next (raiseError .busWriteRo s)
  | .kreg2 => .next (raiseError .busWriteRo s)
  | .ctrl => .next (s.writeCtrl v)
  | .status => .next (s.writeStatus v)
  | .cmd => runCommand v s

/-- `MemWrite(off, 4, v)`: an unmapped write changes no other state and raises BUS_UNMAPPED (R61). -/
def busWrite (off : Offset) (v : Word) (s : State) : Result :=
  if off.toNat % 4 ≠ 0 then .refused (.spellsNoAccess off)
  else
    match regAt off with
    | some r => writeReg r v s
    | none => .next (raiseError .busUnmapped s)

end Sys2Proof.Machine
end

