-- ==== Sys2Proof/Machine/Turns.lean ====
section
/-! DEFINITION. Who acts next, and what each agent's event does: the host's transaction, the engine's core step, a reset event.
All of them stand in one total order (20_memory.md R66), each event atomic. -/

namespace Sys2Proof.Machine

/-- A reset event (R250): control state to its reset values. The datapath holds a draw, a free value per bit (R251). -/
def resetEvent (s : State) : State :=
  { s with
    fsm := .idle
    rc := 0
    done := false
    err := false
    ecause := 0
    irqen := false
    planes := Arr.tab 64 (Config.drawPlane s.draws)
    k := Config.drawKey s.draws
    keyin := Config.drawKeyin s.draws
    din := Arr.tab 256 (Config.drawDin s.draws)
    dout := Arr.tab 256 (Config.drawDout s.draws)
    draws := s.draws + 1 }

/-- One transaction of the host's operation (R88). `poll` reads once, and stays the host's next operation until it has read the
value it waits for. -/
def runHostOp (op : HostOp) (s : State) : Result :=
  match op with
  | .rd off => busRead off s
  | .wr off v => busWrite off v s
  | .poll off mask val =>
    match busRead off s with
    | .next t => if (t.reply.getD 0 &&& mask) = val then .next t else .next { t with hostOps := .poll off mask val :: t.hostOps }
    | .fault f => .fault f
    | .refused r => .refused r

/-- The host's event: its next operation, or nothing. -/
def hostTurn (s : State) : Result :=
  match s.hostOps with
  | [] => .next s
  | op :: rest => runHostOp op { s with hostOps := rest }

/-- Whose event is next: the order's head. Where the order fixes nothing more, the engine acts while BUSY, which is weak fairness
(R193), and else the host. Log entry 2. -/
def State.nextTurn (s : State) : Turn :=
  match s.order with
  | [] => if s.busy then .engine else .host
  | t :: _ => t

/-- The event is taken off the order, and the bus answers nothing yet. -/
def State.beginTurn (s : State) : State := { s with order := s.order.tail, reply := none }

/-- One event. -/
def runTurn (t : Turn) (s : State) : Result :=
  match t with
  | .host => hostTurn s
  | .engine => .next (coreStep s)
  | .reset => .next (resetEvent s)

end Sys2Proof.Machine
end

