-- ==== Sys2Proof/Machine/Step.lean ====
section
/-! DEFINITION. One step is one event of the total order of host transactions, core steps and reset events (20_memory.md R66). The
CORE fetches nothing (10_state.md R30): a command runs when the host writes it to CMD (30_encoding.md R80). -/

namespace Sys2Proof.Machine

/-- One event. -/
def step (s : State) : Host.Outcome State Fault Refusal := runTurn s.nextTurn s.beginTurn

/-- The state whose next event is the host's write of the command word to CMD (log entry 8). -/
def State.withFetchWord (s : State) (nbits w : Nat) : State :=
  { s with
    hostOps := .wr cmdOffset (BitVec.ofNat 32 (w % 2 ^ nbits)) :: s.hostOps
    order := .host :: s.order }

end Sys2Proof.Machine
end

