-- ==== Sys2Proof/Machine/BlockCipher.lean ====
section
/-! DEFINITION. The cipher on one block, as R197 writes it: what a lane of the CORE computes (45_control.md). No command calls it;
statements compare the machine with it. -/

namespace Sys2Proof.Machine

/-- Every nibble `n` of a block replaced by `SBOX[n]` (R124 in lane terms). -/
def substituteBlock (x : Block) : Block := bits 64 fun j => (sbox (x.extractLsb' (4 * (j / 4)) 4)).getLsbD (j % 4)

/-- Bit `j` of a block moved to bit `P(j)` (R143). -/
def permuteBlock (x : Block) : Block := bits 64 fun d => x.getLsbD (permSource d)

/-- One round of R197 on a block, under the key register value of that round. -/
def roundBlock (K : Key) (x : Block) : Block := permuteBlock (substituteBlock (x ^^^ roundKey K))

/-- The key register after `n` advances from the initial key: R164's `K_(n+1)`. -/
def keyAfter (k : Key) : Nat → Key
  | 0 => k
  | n + 1 => advance (keyAfter k n) (BitVec.ofNat 5 (n + 1))

/-- A block after `n` rounds (R197). -/
def blockAfter (k : Key) (p : Block) : Nat → Block
  | 0 => p
  | n + 1 => roundBlock (keyAfter k n) (blockAfter k p n)

/-- `E(k, p)`: 31 rounds and the final mix (R197). -/
def encryptBlock (k : Key) (p : Block) : Block := blockAfter k p 31 ^^^ roundKey (keyAfter k 31)

end Sys2Proof.Machine
end

