-- ==== Sys2Proof/Machine/HostProgram.lean ====
section
/-! DEFINITION. The host-program notation: the command mnemonics of 30_encoding.md R88 and the pseudo-instructions of R89, as the
host operations they stand for. The CORE does not execute them itself. -/

namespace Sys2Proof.Machine

/-- A command mnemonic: `wr 0x328, <word>` (R88). -/
def command (i : Instr) : HostOp := .wr cmdOffset (encode i)

/-- `SETKEY k` (R89). -/
def setKey (k : Key) : List HostOp := [.wr 0x300 (keyWord0 k), .wr 0x304 (keyWord1 k), .wr 0x308 (keyWord2 k)]

/-- `SETLANE i, b` (R89). -/
def setLane (i : Nat) (b : Block) : List HostOp :=
  [.wr (BitVec.ofNat 12 (8 * i)) (b.extractLsb' 0 32), .wr (BitVec.ofNat 12 (8 * i + 4)) (b.extractLsb' 32 32)]

/-- `GETLANE i` (R89). -/
def getLane (i : Nat) : List HostOp := [.rd (BitVec.ofNat 12 (0x100 + 8 * i)), .rd (BitVec.ofNat 12 (0x104 + 8 * i))]

/-- `WAITDONE`: poll STATUS for DONE = 1 and FSM = DONE (R89). -/
def waitDone : List HostOp := [.poll 0x324 0x00000302 0x00000302]

/-- `CLEAR`: clear DONE and ERR (R89). -/
def clear : List HostOp := [.wr 0x324 0x00000006]

/-- `ROUND r` as commands: MIX, SUB, PERM, KADV r (R89). -/
def roundCommands (r : Round) : List Instr := [.mix, .sub, .perm, .kadv r]

/-- `ROUND r` (R89). -/
def roundOps (r : Round) : List HostOp := (roundCommands r).map command

/-- `ENCRYPT`: START, WAITDONE (R89). -/
def encrypt : List HostOp := command .start :: waitDone

/-- The single-layer commands of one encryption: LOAD, LDKEY, ROUND 1 to ROUND 31, MIX, UNLOAD (R199). -/
def layerCommands : List Instr :=
  [.load, .ldkey] ++ (List.range 31).flatMap (fun n => roundCommands (BitVec.ofNat 5 (n + 1))) ++ [.mix, .unload]

end Sys2Proof.Machine
end

