-- ==== Sys2Proof/Safety.lean ====
section
/-! DEFINITION. The terms that statements about runs are written in: what an interface error leaves, the control state's invariant,
an encryption in progress and one that has finished, and runs of commands and of core steps. -/

namespace Sys2Proof.Machine

/-- What an error with cause `c` leaves: ERR is 1, ECAUSE is the first cause since ERR was clear, and nothing else has changed
(R222, R225). -/
def recorded (c : Cause) (s : State) : State :=
  { s with err := true, ecause := if s.err then s.ecause else c.code }

/-- The control state is legal: RC is 0 in IDLE, not 0 in ROUND, 31 in FINAL and DONE (R25); DONE is set only in fsm DONE (R37);
ECAUSE is 0 exactly while ERR is 0, and is a code of R221 (R39). -/
abbrev State.Inv (s : State) : Prop :=
  (s.fsm = .idle → s.rc = 0) ∧ (s.fsm = .round → s.rc ≠ 0) ∧ (s.fsm = .final → s.rc = 31) ∧ (s.fsm = .done → s.rc = 31) ∧
    (s.done = true → s.fsm = .done) ∧ (s.err = false ↔ s.ecause = 0) ∧ s.ecause.toNat ≤ 5

/-- K and every lane of S are those of the encryption of the buffer `d` under the key `k` after `n` rounds (R164, R197). -/
def AfterRounds (k : Key) (d : Buffer) (n : Nat) (s : State) : Prop :=
  s.k = keyAfter k n ∧ ∀ i, i < 32 → lane s.planes i = blockAfter k (bufLane d i) n

/-- The encryption of the buffer `d` under the key `k` is running: in ROUND with RC = r, r - 1 rounds are done; in FINAL, 31
(R194). -/
def Encrypting (k : Key) (d : Buffer) (s : State) : Prop :=
  (s.fsm = .round ∧ s.rc ≠ 0 ∧ AfterRounds k d (s.rc.toNat - 1) s) ∨ (s.fsm = .final ∧ s.rc = 31 ∧ AfterRounds k d 31 s)

/-- The encryption of the buffer `d` under the key `k` has finished: lane `i` of S and of DOUT is `E(k, d_i)`, K is `K_32`
(R195, R197). -/
def Encrypted (k : Key) (d : Buffer) (s : State) : Prop :=
  s.fsm = .done ∧ s.rc = 31 ∧ s.k = keyAfter k 31 ∧
    ∀ i, i < 32 → lane s.planes i = encryptBlock k (bufLane d i) ∧ bufLane s.dout i = encryptBlock k (bufLane d i)

/-- Commands one after another, with no other event between them (R199). -/
def execAll : List Instr → State → Result
  | [], s => .next s
  | i :: is, s =>
    match exec i s with
    | .next t => execAll is t
    | .fault f => .fault f
    | .refused r => .refused r

/-- `n` core steps one after another. -/
def coreSteps : Nat → State → State
  | 0, s => s
  | n + 1, s => coreSteps n (coreStep s)

/-- The state that the next event, a host operation `op` before `rest`, is performed in: the event and the operation are taken off,
and the bus answers nothing yet. -/
def State.atHostOp (s : State) (rest : List HostOp) : State :=
  { s with order := s.order.tail, hostOps := rest, reply := none }

end Sys2Proof.Machine
end

