-- ==== Sys2Proof/Certificates/Slice0/Obligations.lean ====
section
/-! DEFINITION. The statements about the model, from the spec's numbered rules. A statement about a transaction or a command is about
every state, reached or not. `recorded c s` (Safety.lean) is `s` with the error `c` recorded and nothing else changed. -/

open Sys2Proof Sys2Proof.Machine

/-! ### Encoding and the CMD write -/

/-- R83: the words that decode to a row's command are those that match it under its mask, KADV's with R in bits 12:8; OP 0x9 to 0xF is
illegal. -/
def Obligations.OpcodeMapDecodesEachRow : Prop :=
  ∀ w : Word,
    (w &&& 0xFFFFFFFF = 0x00000000 ↔ decode w = .command .nop) ∧
    (w &&& 0xFFFFFFFF = 0x00000001 ↔ decode w = .command .start) ∧
    (w &&& 0xFFFFFFFF = 0x00000002 ↔ decode w = .command .load) ∧
    (w &&& 0xFFFFFFFF = 0x00000003 ↔ decode w = .command .unload) ∧
    (w &&& 0xFFFFFFFF = 0x00000004 ↔ decode w = .command .ldkey) ∧
    (w &&& 0xFFFFFFFF = 0x00000005 ↔ decode w = .command .mix) ∧
    (w &&& 0xFFFFFFFF = 0x00000006 ↔ decode w = .command .sub) ∧
    (w &&& 0xFFFFFFFF = 0x00000007 ↔ decode w = .command .perm) ∧
    (w &&& 0xFFFFE0FF = 0x00000008 → decode w = .command (.kadv (BitVec.ofNat 5 (w.toNat / 2 ^ 8)))) ∧
    (∀ r, decode w = .command (.kadv r) → w &&& 0xFFFFE0FF = 0x00000008) ∧
    (9 ≤ w.toNat % 16 → decode w = .rejected .illegalOp)

/-- Words written out from the format's diagram and the opcode map (30_encoding.md section 2), bits 31 to 0. -/
def Obligations.SpecWordsDecodeToTheirCommands : Prop :=
  decode 0b00000000000000000000000000000000 = .command .nop ∧
  decode 0b00000000000000000000000000000001 = .command .start ∧
  decode 0b00000000000000000000000000000010 = .command .load ∧
  decode 0b00000000000000000000000000000100 = .command .ldkey ∧
  decode 0b00000000000000000000000000000101 = .command .mix ∧
  decode 0b00000000000000000000000000000110 = .command .sub ∧
  decode 0b00000000000000000000000000000111 = .command .perm ∧
  decode 0b00000000000000000001111100001000 = .command (.kadv 31) ∧
  decode 0b00000000000000000000000100001000 = .command (.kadv 1)

/-- Decode and encode agree in both directions: no bit of a command or of a legal word is dropped. -/
def Obligations.DecodeAndEncodeAgree : Prop :=
  (∀ i : Instr, i.wf = true → decode (encode i) = .command i) ∧
  (∀ (w : Word) (i : Instr), decode w = .command i → encode i = w)

/-- The spec's sentence, which it marks as derived: "Legal words are 0x00000000 to 0x00000007, and 0x00000008 + (r << 8) for r in
0..31, which is 40 words in all. Every other word of the 2^32 is illegal and is rejected". -/
def Obligations.LegalWordsAreTheListedForty : Prop :=
  (∀ w : Word, (∃ i, decode w = .command i) ↔ w ∈ legalWords) ∧
  legalWords.length = 40 ∧ legalWords.Nodup ∧
  ∀ (w : Word) (s : State), w ∉ legalWords →
    runCommand w s = .next (recorded .cmdIllegalOp s) ∨ runCommand w s = .next (recorded .cmdReservedBits s)

/-- R85: the checks of a CMD write, in order, on the fields of R82 taken as numbers; the operation runs only when all pass. -/
def Obligations.CommandWriteChecksInOrder : Prop :=
  ∀ (w : Word) (s : State),
    let op := w.toNat % 16
    let reserved := w.toNat / 8192 ≠ 0 ∨ w.toNat / 16 % 16 ≠ 0 ∨ (op ≠ 8 ∧ w.toNat / 256 % 32 ≠ 0)
    (9 ≤ op → runCommand w s = .next (recorded .cmdIllegalOp s)) ∧
    (op < 9 → reserved → runCommand w s = .next (recorded .cmdReservedBits s)) ∧
    (op < 9 → ¬ reserved → op = 0 → runCommand w s = .next s) ∧
    (op < 9 → ¬ reserved → op ≠ 0 → s.busy = true → runCommand w s = .next (recorded .cmdBusy s)) ∧
    (op < 9 → ¬ reserved → op ≠ 0 → s.busy = false → ∃ i, encode i = w ∧ runCommand w s = exec i s)

/-- R87: BUSY is fsm ROUND or FINAL; while BUSY every command but NOP records CMD_BUSY and does nothing else; otherwise every command
is accepted, and no error is recorded. -/
def Obligations.BusyTurnsAwayEveryCommandButNop : Prop :=
  ∀ (i : Instr) (s : State), i ≠ .nop →
    (s.fsm = .round ∨ s.fsm = .final → exec i s = .next (recorded .cmdBusy s)) ∧
    (s.fsm = .idle ∨ s.fsm = .done → ∃ t, exec i s = .next t ∧ t.err = s.err ∧ t.ecause = s.ecause)

/-! ### One step -/

/-- A step runs the decoded command (30_encoding.md section 1): when the host is next and its operation writes a legal command's word to
CMD, the step is that command's `exec`, in the state with the event and the operation taken off. The host's operations and the order of
events are the model's (log entry 1). -/
def Obligations.StepRunsTheDecodedCommand : Prop :=
  ∀ (s : State) (w : Word) (i : Instr) (rest : List HostOp),
    s.nextTurn = .host → s.hostOps = .wr 0x328 w :: rest → decode w = .command i →
      step s = exec i { s with order := s.order.tail, hostOps := rest, reply := none }

/-- The host's turn is one transaction (20_memory.md section 1). A poll reads once and stays until it has read its value (30_encoding.md
section 5). The host's operations and the order of events are the model's (log entries 1, 6), and so is the last clause: that a host event
with no operation left changes nothing but the order and the bus's answer is log entry 11, DESIGN CHOICE, and no rule of the spec. -/
def Obligations.HostTurnPerformsItsTransaction : Prop :=
  ∀ (s : State) (rest : List HostOp), s.nextTurn = .host →
    (∀ off, s.hostOps = .rd off :: rest → step s = busRead off (s.atHostOp rest)) ∧
    (∀ off v, s.hostOps = .wr off v :: rest → step s = busWrite off v (s.atHostOp rest)) ∧
    (∀ off mask val t x, s.hostOps = .poll off mask val :: rest → busRead off (s.atHostOp rest) = .next t → t.reply = some x →
      (x &&& mask = val → step s = .next t) ∧
      (x &&& mask ≠ val → step s = .next { t with hostOps := .poll off mask val :: rest })) ∧
    (s.hostOps = [] → step s = .next { s with order := s.order.tail, reply := none })

/-- Placing a command's word makes it the next event (log entry 8). -/
def Obligations.PlacedWordIsTheNextEvent : Prop :=
  ∀ (s : State) (w : Nat) (i : Instr), decodeTableWord 32 w = some i →
    step (s.withFetchWord 32 w) = exec i { s with reply := none }

/-- The engine has a core step exactly when BUSY (45_control.md section 1); where the order fixes nothing, it acts while BUSY (log
entries 1, 2, DESIGN CHOICE). An engine event while not BUSY, which the spec does not have, changes nothing but the order and the bus's
answer (log entry 11, DESIGN CHOICE). A core step while BUSY is never without effect on fsm or RC. -/
def Obligations.EngineTurnIsACoreStepExactlyWhileBusy : Prop :=
  ∀ s : State,
    (s.nextTurn = .engine → s.busy = true →
      step s = .next (coreStep { s with order := s.order.tail, reply := none }) ∧
      ((coreStep s).fsm, (coreStep s).rc) ≠ (s.fsm, s.rc)) ∧
    (s.nextTurn = .engine → s.busy = false → step s = .next { s with order := s.order.tail, reply := none }) ∧
    (s.order = [] → (s.nextTurn = .engine ↔ s.busy = true))

/-- No event stops the machine with a fault, only an offset that is no multiple of 4 is refused, and there every read, write and poll is
(60_exceptions.md section 1, 20_memory.md section 3). -/
def Obligations.StepStopsOnlyAtMisalignedOffsets : Prop :=
  ∀ s : State,
    (∀ f, step s ≠ .fault f) ∧
    (∀ r, step s = .refused r →
      ∃ off rest, r = .spellsNoAccess off ∧ off.toNat % 4 ≠ 0 ∧ s.nextTurn = .host ∧
        (s.hostOps = .rd off :: rest ∨ (∃ v, s.hostOps = .wr off v :: rest) ∨ ∃ m v, s.hostOps = .poll off m v :: rest)) ∧
    (∀ off rest m v, s.nextTurn = .host → off.toNat % 4 ≠ 0 →
      (s.hostOps = .rd off :: rest ∨ s.hostOps = .wr off v :: rest ∨ s.hostOps = .poll off m v :: rest) →
      step s = .refused (.spellsNoAccess off))

/-! ### Commands -/

/-- R191: NOP changes nothing in any state, BUSY included; its word is 0 alone, and any other word with OP = 0 raises
CMD_RESERVED_BITS. -/
def Obligations.NopChangesNothing : Prop :=
  (∀ s : State, exec .nop s = .next s) ∧
  (∀ w : Word, decode w = .command .nop ↔ w = 0) ∧
  (∀ (w : Word) (s : State), w.toNat % 16 = 0 → w ≠ 0 → runCommand w s = .next (recorded .cmdReservedBits s))

/-- R192: START, with its encoding, its effect bit by bit, its frame, its corner cases (a DIN or KEYIN write after it does not touch the
encryption) and its example. -/
def Obligations.StartBeginsAnEncryption : Prop :=
  decode 0x00000001 = .command .start ∧
  ∀ s : State,
    (s.busy = true → exec .start s = .next (recorded .cmdBusy s)) ∧
    (s.busy = false → ∃ t, exec .start s = .next t ∧
      t = { s with planes := t.planes, k := s.keyin, rc := 1, done := false, fsm := .round } ∧
      (∀ j i, j < 64 → i < 32 → (t.planes.get j).getLsbD i = (s.din.get (8 * i + j / 8)).getLsbD (j % 8)) ∧
      t.busy = true ∧ t.irq = false ∧
      (s.err = false → s.ecause = 0 → t.statusWord = 0x00010101) ∧
      (∀ off v u, (off.toNat < 0x100 ∨ off = 0x300 ∨ off = 0x304 ∨ off = 0x308) → busWrite off v t = .next u →
        coreStep u = { coreStep t with din := u.din, keyin := u.keyin }))

/-- R104 with R100: LOAD, with its encoding, its effect bit by bit, its frame, its corner cases and its example. -/
def Obligations.LoadTransposesInputIntoPlanes : Prop :=
  decode 0x00000002 = .command .load ∧
  ∀ s : State,
    (s.busy = true → exec .load s = .next (recorded .cmdBusy s)) ∧
    (s.busy = false → ∃ t, exec .load s = .next t ∧ t = { s with planes := t.planes } ∧
      (∀ j i, j < 64 → i < 32 → (t.planes.get j).getLsbD i = (s.din.get (8 * i + j / 8)).getLsbD (j % 8)) ∧
      ((∀ b, b < 256 → s.din.get b = 0x00) → ∀ j, j < 64 → t.planes.get j = 0x00000000) ∧
      ((∀ b, b < 256 → s.din.get b = 0xFF) → ∀ j, j < 64 → t.planes.get j = 0xFFFFFFFF) ∧
      exec .load t = .next t ∧
      ((∀ i, i < 32 → bufLane s.din i = BitVec.ofNat 64 i) →
        t.planes.get 0 = 0xAAAAAAAA ∧ t.planes.get 1 = 0xCCCCCCCC ∧ t.planes.get 2 = 0xF0F0F0F0 ∧ t.planes.get 3 = 0xFF00FF00 ∧
        t.planes.get 4 = 0xFFFF0000 ∧ ∀ j, 5 ≤ j → j < 64 → t.planes.get j = 0))

/-- R105 with R101: UNLOAD, with its encoding, its effect bit by bit, its frame, its corner cases and its example. -/
def Obligations.UnloadTransposesPlanesIntoOutput : Prop :=
  decode 0x00000003 = .command .unload ∧
  (∀ s : State,
    (s.busy = true → exec .unload s = .next (recorded .cmdBusy s)) ∧
    (s.busy = false → ∃ t, exec .unload s = .next t ∧ t = { s with dout := t.dout } ∧
      (∀ i m b, i < 32 → m < 8 → b < 8 → (t.dout.get (8 * i + m)).getLsbD b = (s.planes.get (8 * m + b)).getLsbD i) ∧
      toBitplanes t.dout = s.planes ∧
      (s.planes.get 0 = 0x00000001 → s.planes.get 63 = 0x80000000 → (∀ j, 0 < j → j < 63 → s.planes.get j = 0) →
        bufLane t.dout 0 = 0x0000000000000001 ∧ bufLane t.dout 31 = 0x8000000000000000 ∧
        ∀ i, 0 < i → i < 31 → bufLane t.dout i = 0))) ∧
  (∀ s t : State, s.busy = false → exec .load s = .next t → ∃ u, exec .unload t = .next u ∧ u.dout = s.din) ∧
  (∀ s : State, s.fsm = .final → exec .unload (coreStep s) = .next (coreStep s))

/-- R166: LDKEY, with its encoding, its effect, its frame, its corner cases (after an encryption it restores the original key) and its
example. -/
def Obligations.LdkeyCopiesTheKeyInput : Prop :=
  decode 0x00000004 = .command .ldkey ∧
  (∀ s : State, s.fsm = .final → exec .ldkey (coreStep s) = .next { coreStep s with k := s.keyin }) ∧
  ∀ s : State,
    (s.busy = true → exec .ldkey s = .next (recorded .cmdBusy s)) ∧
    (s.busy = false → ∃ t, exec .ldkey s = .next t ∧ t = { s with k := s.keyin } ∧
      (s.keyin = 0x0123456789ABCDEF0123 →
        readReg .kreg2 t = 0x00000123 ∧ readReg .kreg1 t = 0x456789AB ∧ readReg .kreg0 t = 0xCDEF0123))

/-- R167: KADV r, with its encoding, its effect, its frame, its corner cases and its example. -/
def Obligations.KadvAdvancesTheKeyOnce : Prop :=
  (∀ r : Round, decode (0x00000008 ||| (r.setWidth 32 <<< 8)) = .command (.kadv r)) ∧
  (∀ (w : Word) (s : State), w.toNat % 16 = 8 → (w.toNat / 8192 ≠ 0 ∨ w.toNat / 16 % 16 ≠ 0) →
    runCommand w s = .next (recorded .cmdReservedBits s)) ∧
  ∀ (r : Round) (s : State),
    (s.busy = true → exec (.kadv r) s = .next (recorded .cmdBusy s)) ∧
    (s.busy = false → ∃ t, exec (.kadv r) s = .next t ∧ t = { s with k := advance s.k r } ∧
      (r = 0 → t.k = substituteTop (rotateKey s.k)) ∧
      (s.k = 0 → r = 0 → t.k = 0xC0000000000000000000) ∧
      (s.k = 0 → r = 1 → t.k = 0xC0000000000000008000) ∧
      (r = 31 → (rotateKey s.k).extractLsb' 15 5 = 0 → t.k.extractLsb' 15 5 = 31))

/-- R182 with R180: MIX, with its encoding, its effect plane by plane, its frame, its corner cases and its example. -/
def Obligations.MixXorsTheRoundKeyIntoEveryPlane : Prop :=
  decode 0x00000005 = .command .mix ∧
  ∀ s : State,
    (s.busy = true → exec .mix s = .next (recorded .cmdBusy s)) ∧
    (s.busy = false → ∃ t, exec .mix s = .next t ∧ t = { s with planes := t.planes } ∧
      (∀ j, j < 64 → t.planes.get j = if s.k.getLsbD (16 + j) then s.planes.get j ^^^ 0xFFFFFFFF else s.planes.get j) ∧
      (∀ u, u.busy = false → u.planes = s.planes → u.k.toNat / 2 ^ 16 = s.k.toNat / 2 ^ 16 →
        ∃ v, exec .mix u = .next v ∧ v.planes = t.planes) ∧
      (s.k = 0x0000000000000000FFFF → t = s) ∧
      exec .mix t = .next s ∧
      (s.k = 0xFFFFFFFFFFFFFFFFFFFF → ∀ j, j < 64 → t.planes.get j = ~~~ s.planes.get j) ∧
      (s.k = 0x00000000000000010000 → (∀ j, j < 64 → s.planes.get j = 0) →
        t.planes.get 0 = 0xFFFFFFFF ∧ ∀ i, i < 32 → lane t.planes i = 0x0000000000000001))

/-- SUB, with its encoding, its effect nibble by nibble of every lane, its frame, its corner cases and its example (41_substitution.md
section 2). That every nibble of every lane becomes SBOX of it is the section's sentence in lane terms, which the spec marks as derived. -/
def Obligations.SubSubstitutesEveryNibble : Prop :=
  decode 0x00000006 = .command .sub ∧ Function.Bijective substitute ∧
  ∀ s : State,
    (s.busy = true → exec .sub s = .next (recorded .cmdBusy s)) ∧
    (s.busy = false → ∃ t, exec .sub s = .next t ∧ t = { s with planes := t.planes } ∧ t.planes = substitute s.planes ∧
      (∀ i n, i < 32 → n < 16 →
        (lane t.planes i).extractLsb' (4 * n) 4 = sbox ((lane s.planes i).extractLsb' (4 * n) 4) ∧
        (lane t.planes i).extractLsb' (4 * n) 4 ≠ (lane s.planes i).extractLsb' (4 * n) 4) ∧
      ((∀ j, j < 64 → s.planes.get j = 0) →
        (∀ i, i < 32 → lane t.planes i = 0xCCCCCCCCCCCCCCCC) ∧ ∃ u, exec .sub t = .next u ∧ u.planes ≠ s.planes) ∧
      ((∀ i, i < 32 → lane s.planes i = BitVec.ofNat 64 i) →
        lane t.planes 5 = 0xCCCCCCCCCCCCCCC0 ∧ lane t.planes 17 = 0xCCCCCCCCCCCCCC55))

/-- R142 with R140: PERM moves the plane at each index j to index P(j), out of place, and changes nothing else. -/
def Obligations.PermMovesEachPlane : Prop :=
  decode 0x00000007 = .command .perm ∧
  ∀ s : State,
    (s.busy = true → exec .perm s = .next (recorded .cmdBusy s)) ∧
    (s.busy = false → ∃ t, exec .perm s = .next t ∧ t = { s with planes := t.planes } ∧
      ∀ j, j < 64 → t.planes.get (j / 4 + (j % 4) * 16) = s.planes.get j)

/-- PERM's corner cases and example (42_permutation.md section 2); the spec marks "P has order 3" as derived. -/
def Obligations.PermHasOrderThreeAndFourFixedPlanes : Prop :=
  ∀ s : State, s.busy = false → ∃ t u, exec .perm s = .next t ∧ exec .perm t = .next u ∧ exec .perm u = .next s ∧
    (∀ j, j = 0 ∨ j = 21 ∨ j = 42 ∨ j = 63 → t.planes.get j = s.planes.get j) ∧
    ((∀ j, j < 64 → s.planes.get j = 0x00000000) → t = s) ∧ ((∀ j, j < 64 → s.planes.get j = 0xFFFFFFFF) → t = s) ∧
    (∀ i, i < 32 → lane s.planes i = 0x0000000000000002 → lane t.planes i = 0x0000000000010000)

/-- The frame of every command: it always answers a next state, and each piece of state is unchanged but for the commands that write it
(10_state.md section 1). -/
def Obligations.CommandsChangeOnlyTheirDestinations : Prop :=
  ∀ (i : Instr) (s : State), ∃ t, exec i s = .next t ∧
    t.din = s.din ∧ t.keyin = s.keyin ∧ t.irqen = s.irqen ∧
    t.hostOps = s.hostOps ∧ t.order = s.order ∧ t.reply = s.reply ∧ t.draws = s.draws ∧
    (i ≠ .start → t.fsm = s.fsm ∧ t.rc = s.rc ∧ t.done = s.done) ∧
    (i ≠ .unload → t.dout = s.dout) ∧
    (i = .nop ∨ i = .unload ∨ i = .ldkey ∨ (∃ r, i = .kadv r) → t.planes = s.planes) ∧
    (i ≠ .start → i ≠ .ldkey → (∀ r, i ≠ .kadv r) → t.k = s.k) ∧
    (s.busy = false ∨ i = .nop → t.err = s.err ∧ t.ecause = s.ecause)

/-! ### The cipher's functions -/

/-- The spec's sentence, which it marks as derived: "The two functions are mutually inverse on every input" (40_transpose.md
section 1). -/
def Obligations.TransposesInvertEachOther : Prop :=
  (∀ D : Buffer, fromBitplanes (toBitplanes D) = D) ∧ (∀ T : Planes, toBitplanes (fromBitplanes T) = T)

/-- The spec's sentence, which it marks as derived: the circuit and the table "agree bit for bit" in every lane (41_substitution.md
section 1). -/
def Obligations.CircuitAgreesWithTheTable : Prop :=
  ∀ (x0 x1 x2 x3 : Plane) (i x : Nat), i < 32 →
    x = (x0.getLsbD i).toNat + 2 * (x1.getLsbD i).toNat + 4 * (x2.getLsbD i).toNat + 8 * (x3.getLsbD i).toNat →
    ((circuit0 x0 x1 x2 x3).getLsbD i).toNat + 2 * ((circuit1 x0 x1 x2 x3).getLsbD i).toNat +
      4 * ((circuit2 x0 x1 x2 x3).getLsbD i).toNat + 8 * ((circuit3 x0 x1 x2 x3).getLsbD i).toNat =
        (sbox (BitVec.ofNat 4 x)).toNat

/-- R161 with R160: every bit of the rotated key and of the updated key. The top nibble of the rotated key is K[18:15]. -/
def Obligations.AdvanceKeyBitByBit : Prop :=
  ∀ (K : Key) (r : Round),
    (∀ i, i < 80 → (rotateKey K).getLsbD i = K.getLsbD ((i + 19) % 80)) ∧
    (∀ i, i < 15 ∨ (20 ≤ i ∧ i < 76) → (advance K r).getLsbD i = K.getLsbD ((i + 19) % 80)) ∧
    (∀ m, m < 5 → (advance K r).getLsbD (15 + m) = (K.getLsbD (15 + m + 19) ^^ r.getLsbD m)) ∧
    (advance K r).extractLsb' 76 4 = sbox (K.extractLsb' 15 4)

/-- The spec's byte form of the key update, which it marks as derived (43_key_schedule.md section 1): with B[m] the key's bytes, step 1
gives B1[m], step 2 acts on the top nibble of B1[9], step 3 on B1[1] and B1[2]. -/
def Obligations.AdvanceKeyByteByByte : Prop :=
  ∀ (K : Key) (r : Round),
    let b : Nat → Byte := fun m => K.extractLsb' (8 * (m % 10)) 8
    let b1 : Nat → Byte := fun m => (b (m + 2) >>> 3) ||| (b (m + 3) <<< 5)
    let out : Nat → Byte := fun m => (advance K r).extractLsb' (8 * m) 8
    (∀ m, m = 0 ∨ (3 ≤ m ∧ m < 9) → out m = b1 m) ∧
    out 1 = b1 1 ^^^ (r.setWidth 8 <<< 7) ∧
    out 2 = b1 2 ^^^ (r >>> 1).setWidth 8 ∧
    out 9 = (sbox ((b1 9).extractLsb' 4 4) ++ (b1 9).extractLsb' 0 4 : BitVec (4 + 4))

/-- The layers in lane terms (40_transpose.md section 1, 41_substitution.md section 2, 42_permutation.md section 1, 44_mixer.md section
1); the spec marks each sentence as derived. -/
def Obligations.LayersActOnEachLaneAlone : Prop :=
  ∀ (S : Planes) (D : Buffer) (rk : Block) (i : Nat), i < 32 →
    lane (toBitplanes D) i = bufLane D i ∧ bufLane (fromBitplanes S) i = lane S i ∧
    lane (mix S rk) i = lane S i ^^^ rk ∧
    (∀ n, n < 16 → (lane (substitute S) i).extractLsb' (4 * n) 4 = sbox ((lane S i).extractLsb' (4 * n) 4)) ∧
    (∀ j, j < 64 → (lane (permute S) i).getLsbD (j / 4 + (j % 4) * 16) = (lane S i).getLsbD j)

/-- R4: lanes never interact. Two states that agree on fsm, RC, the keys and one lane of S, DIN and DOUT agree on all of that again after
the same command, and after a core step, whatever the other lanes hold; so the agreement carries over any sequence of them. -/
def Obligations.LanesNeverInteract : Prop :=
  ∀ (s t : State) (n : Nat), n < 32 → s.fsm = t.fsm → s.rc = t.rc → s.k = t.k → s.keyin = t.keyin →
    lane s.planes n = lane t.planes n → bufLane s.din n = bufLane t.din n → bufLane s.dout n = bufLane t.dout n →
    (∀ i : Instr, ∃ s' t', exec i s = .next s' ∧ exec i t = .next t' ∧
      s'.fsm = t'.fsm ∧ s'.rc = t'.rc ∧ s'.k = t'.k ∧ s'.keyin = t'.keyin ∧
      lane s'.planes n = lane t'.planes n ∧ bufLane s'.din n = bufLane t'.din n ∧ bufLane s'.dout n = bufLane t'.dout n) ∧
    ((coreStep s).fsm = (coreStep t).fsm ∧ (coreStep s).rc = (coreStep t).rc ∧ (coreStep s).k = (coreStep t).k ∧
      (coreStep s).keyin = (coreStep t).keyin ∧ lane (coreStep s).planes n = lane (coreStep t).planes n ∧
      bufLane (coreStep s).din n = bufLane (coreStep t).din n ∧ bufLane (coreStep s).dout n = bufLane (coreStep t).dout n)

/-! ### The engine -/

/-- The ROUND step, with its frame; and in the encryption that START begins, RC takes each value 1 to 31 exactly once (45_control.md
section 1). At RC = 0, which no run reaches and the spec leaves open, it says that the step follows the same pseudocode: log entry 14, DESIGN
CHOICE. That each lane goes through one cipher round rests on sentences in lane terms that the spec marks as derived. -/
def Obligations.RoundStepPerformsOneRound : Prop :=
  (∀ s : State, s.fsm = .round → ∃ t, coreStep s = t ∧
    t = { s with planes := t.planes, k := t.k, rc := t.rc, fsm := t.fsm } ∧
    t.planes = permute (substitute (mix s.planes (s.k.extractLsb' 16 64))) ∧
    t.k = advance s.k s.rc ∧
    (s.rc.toNat < 31 → t.rc.toNat = s.rc.toNat + 1 ∧ t.fsm = .round) ∧
    (s.rc.toNat = 31 → t.rc.toNat = 31 ∧ t.fsm = .final) ∧
    t.busy = true ∧
    (∀ i, i < 32 → lane t.planes i = roundBlock s.k (lane s.planes i))) ∧
  (∀ s t : State, s.busy = false → exec .start s = .next t →
    (∀ n, n < 31 → (coreSteps n t).fsm = .round ∧ (coreSteps n t).rc.toNat = n + 1) ∧ (coreSteps 31 t).fsm = .final)

/-- The FINAL step, with its frame; K is K_32 after it (45_control.md section 1). That each lane of S is the lane XOR the round key, and each
lane of DOUT that lane, rests on sentences in lane terms that the spec marks as derived (44_mixer.md section 1, 40_transpose.md section 1). -/
def Obligations.FinalStepWritesTheOutput : Prop :=
  ∀ s : State, s.fsm = .final → ∃ t, coreStep s = t ∧
    t = { s with planes := t.planes, dout := t.dout, done := true, fsm := .done } ∧
    t.planes = mix s.planes (s.k.extractLsb' 16 64) ∧ t.dout = fromBitplanes t.planes ∧
    (∀ i, i < 32 → lane t.planes i = lane s.planes i ^^^ s.k.extractLsb' 16 64 ∧ bufLane t.dout i = lane t.planes i) ∧
    (∀ k d, Encrypting k d s → t.k = keyAfter k 31)

/-- R28: only START, the ROUND step, the FINAL step and reset write fsm. -/
def Obligations.OnlyStartEngineAndResetWriteFsm : Prop :=
  ∀ s t : State, step s = .next t → t.fsm ≠ s.fsm →
    (s.nextTurn = .host ∧ (∃ rest, s.hostOps = .wr 0x328 0x00000001 :: rest) ∧ (s.fsm = .idle ∨ s.fsm = .done) ∧ t.fsm = .round) ∨
    (s.nextTurn = .engine ∧ s.fsm = .round ∧ s.rc = 31 ∧ t.fsm = .final) ∨
    (s.nextTurn = .engine ∧ s.fsm = .final ∧ t.fsm = .done) ∨
    (s.nextTurn = .reset ∧ t.fsm = .idle)

/-- RC is written only by START, which makes it 1, by a ROUND step with RC below 31, which adds one, and by reset, which makes it 0
(10_state.md section 4). -/
def Obligations.OnlyStartRoundStepAndResetWriteTheRoundCounter : Prop :=
  ∀ s t : State, step s = .next t → t.rc ≠ s.rc →
    (s.nextTurn = .host ∧ (∃ rest, s.hostOps = .wr 0x328 0x00000001 :: rest) ∧ t.rc = 1 ∧ t.fsm = .round) ∨
    (s.nextTurn = .engine ∧ s.fsm = .round ∧ s.rc.toNat < 31 ∧ t.rc.toNat = s.rc.toNat + 1) ∨
    (s.nextTurn = .reset ∧ t.rc = 0)

/-- DONE is set only by the FINAL step, and cleared only by START, by a STATUS write with bit 1 set and by reset; clearing it by a STATUS
write does not change fsm (10_state.md section 7). -/
def Obligations.OnlyListedEventsWriteDone : Prop :=
  ∀ s t : State, step s = .next t →
    (s.done = false → t.done = true → s.nextTurn = .engine ∧ s.fsm = .final) ∧
    (s.done = true → t.done = false →
      s.nextTurn = .reset ∨
      (s.nextTurn = .host ∧ ∃ rest, s.hostOps = .wr 0x328 0x00000001 :: rest) ∨
      (s.nextTurn = .host ∧ t.fsm = s.fsm ∧ ∃ v rest, s.hostOps = .wr 0x324 v :: rest ∧ v.getLsbD 1 = true))

/-- S, K, DIN, DOUT and KEYIN are written only by the events the spec lists for each (10_state.md sections 2, 3 and 6). -/
def Obligations.OnlyListedEventsWriteTheDatapath : Prop :=
  ∀ s t : State, step s = .next t → s.nextTurn ≠ .reset →
    (t.planes ≠ s.planes → (s.nextTurn = .engine ∧ s.busy = true) ∨
      (s.nextTurn = .host ∧ s.busy = false ∧ ∃ w i rest, s.hostOps = .wr 0x328 w :: rest ∧ decode w = .command i ∧
        (i = .start ∨ i = .load ∨ i = .mix ∨ i = .sub ∨ i = .perm))) ∧
    (t.k ≠ s.k → (s.nextTurn = .engine ∧ s.fsm = .round) ∨
      (s.nextTurn = .host ∧ s.busy = false ∧ ∃ w i rest, s.hostOps = .wr 0x328 w :: rest ∧ decode w = .command i ∧
        (i = .start ∨ i = .ldkey ∨ ∃ r, i = .kadv r))) ∧
    (t.dout ≠ s.dout → (s.nextTurn = .engine ∧ s.fsm = .final) ∨
      (s.nextTurn = .host ∧ s.busy = false ∧ ∃ rest, s.hostOps = .wr 0x328 0x00000003 :: rest)) ∧
    (t.din ≠ s.din → s.nextTurn = .host ∧ ∃ off v rest, s.hostOps = .wr off v :: rest ∧ off.toNat < 0x100) ∧
    (t.keyin ≠ s.keyin → s.nextTurn = .host ∧ ∃ off v rest, s.hostOps = .wr off v :: rest ∧ 0x300 ≤ off.toNat ∧ off.toNat ≤ 0x308)

/-- The control state is legal after reset. -/
def Obligations.ControlStateIsLegalAtReset : Prop := State.reset.Inv

/-- Every step from a legal control state ends in one: RC follows fsm, DONE is set only in fsm DONE, ECAUSE is a code and 0 exactly
while ERR is 0. -/
def Obligations.EveryStepKeepsTheControlStateLegal : Prop :=
  ∀ s t : State, s.Inv → step s = .next t → t.Inv

/-- One encryption (45_control.md section 2, sentences the spec marks as derived): from any state that is not BUSY, with the host's START
next and nothing more fixed in the order (log entry 2), the step of START and 32 core steps end with lane i of DOUT equal to
E(KEYIN, lane i of DIN). Before the 32nd core step BUSY is 1, DONE is 0 and DOUT is unchanged. -/
def Obligations.EncryptionFinishesAfterThirtyTwoCoreSteps : Prop :=
  ∀ (s : State) (rest : List HostOp),
    s.busy = false → s.nextTurn = .host → s.order.tail = [] → s.hostOps = .wr 0x328 0x00000001 :: rest →
    (∀ n, 1 ≤ n → n < 33 → ∃ u : State, Sys2Proof.core.run n s = .next u ∧ u.busy = true ∧ u.done = false ∧ u.dout = s.dout) ∧
    ∃ t : State, Sys2Proof.core.run 33 s = .next t ∧ Encrypted s.keyin s.din t ∧ t.done = true ∧ t.busy = false ∧
      t.din = s.din ∧ t.keyin = s.keyin ∧ t.irqen = s.irqen ∧ t.err = s.err ∧ t.ecause = s.ecause ∧ t.hostOps = rest

/-- The result is a function of KEYIN and DIN at START alone (45_control.md section 2, a sentence the spec marks as derived): START begins
the encryption of DIN under KEYIN, and no event but reset turns a running encryption into anything but the same one, further on or
finished. -/
def Obligations.RunningEncryptionIsUndisturbed : Prop :=
  (∀ s : State, s.busy = false → ∃ t, exec .start s = .next t ∧ Encrypting s.keyin s.din t) ∧
  (∀ (k : Key) (d : Buffer) (s t : State), Encrypting k d s → s.nextTurn ≠ .reset → step s = .next t →
    (s.nextTurn = .host → Encrypting k d t ∧ t.fsm = s.fsm ∧ t.rc = s.rc ∧ t.dout = s.dout) ∧
    (s.nextTurn = .engine → s.fsm = .round → Encrypting k d t ∧ t.dout = s.dout ∧
      (s.rc.toNat < 31 → t.fsm = .round ∧ t.rc.toNat = s.rc.toNat + 1) ∧ (s.rc.toNat = 31 → t.fsm = .final ∧ t.rc = s.rc)) ∧
    (s.nextTurn = .engine → s.fsm = .final → Encrypted k d t ∧ t.done = true))

/-- After the FINAL step the result stays until the host's next command other than NOP, or reset (20_memory.md section 4, a sentence the
spec marks as derived). -/
def Obligations.FinishedResultStaysUntilTheNextCommand : Prop :=
  ∀ (k : Key) (d : Buffer) (s t : State), Encrypted k d s → step s = .next t → s.nextTurn ≠ .reset →
    (∀ w i rest, s.nextTurn = .host → s.hostOps = .wr 0x328 w :: rest → decode w = .command i → i = .nop) →
      Encrypted k d t ∧ t.dout = fromBitplanes t.planes

/-- The known answer, in every lane (45_control.md section 2; the spec marks the byte and word rendering as derived). -/
def Obligations.ZeroKeyZeroBlockGivesTheKnownAnswer : Prop :=
  encryptBlock 0 0 = 0x5579C1387B228445 ∧
  ∀ (s : State) (i : Nat), Encrypted 0 s.din s → i < 32 → bufLane s.din i = 0 →
    readReg (.doutw (2 * i)) s = 0x7B228445 ∧ readReg (.doutw (2 * i + 1)) s = 0x5579C138 ∧
    (List.range 8).map (fun m => s.dout.get (8 * i + m)) = [0x45, 0x84, 0x22, 0x7B, 0x38, 0xC1, 0x79, 0x55]

/-- LOAD, LDKEY, ROUND 1 to ROUND 31, MIX, UNLOAD give the S, K and DOUT of START and its 32 core steps, and leave fsm, RC and DONE as
they are (45_control.md section 2); ROUND r as four commands changes the state as one ROUND step with RC = r does, but for fsm and RC
(30_encoding.md section 5). The spec marks both sentences as derived. At r = 0 the ROUND step compared with is log entry 14's, DESIGN
CHOICE. -/
def Obligations.LayerCommandsEqualOneEncryption : Prop :=
  (∀ s : State, s.busy = false → ∃ t u, execAll layerCommands s = .next t ∧ exec .start s = .next u ∧
    t = { s with planes := (coreSteps 32 u).planes, k := (coreSteps 32 u).k, dout := (coreSteps 32 u).dout } ∧
    (coreSteps 32 u).fsm = .done ∧ (coreSteps 32 u).rc = 31 ∧ (coreSteps 32 u).done = true) ∧
  (∀ (s : State) (r : Round), s.busy = false →
    execAll (roundCommands r) s = .next { coreStep { s with fsm := .round, rc := r } with fsm := s.fsm, rc := s.rc })

/-! ### The register window -/

/-- R54: DIN words are little-endian, readable and writable, and word 2i and 2i+1 make lane i's block. -/
def Obligations.DinWordsAreLittleEndian : Prop :=
  ∀ (s : State) (w : Nat) (v : Word), w < 64 →
    (∃ t, busRead (BitVec.ofNat 12 (4 * w)) s = .next t ∧ t = { s with reply := t.reply } ∧
      t.reply = some ((s.din.get (4 * w)).setWidth 32 ||| (s.din.get (4 * w + 1)).setWidth 32 <<< 8 |||
        (s.din.get (4 * w + 2)).setWidth 32 <<< 16 ||| (s.din.get (4 * w + 3)).setWidth 32 <<< 24)) ∧
    (∃ t, busWrite (BitVec.ofNat 12 (4 * w)) v s = .next t ∧ t = { s with din := t.din } ∧
      (∀ k, k < 4 → t.din.get (4 * w + k) = v.extractLsb' (8 * k) 8) ∧
      (∀ b, b < 256 → b / 4 ≠ w → t.din.get b = s.din.get b)) ∧
    (∀ i x y, i < 32 → busRead (BitVec.ofNat 12 (8 * i)) s = .next { s with reply := some x } →
      busRead (BitVec.ofNat 12 (8 * i + 4)) s = .next { s with reply := some y } →
      bufLane s.din i = x.setWidth 64 ||| y.setWidth 64 <<< 32)

/-- R55: DOUT words are packed as DIN words are; a write raises BUS_WRITE_RO and changes nothing. -/
def Obligations.DoutWordsAreReadOnly : Prop :=
  ∀ (s : State) (w : Nat) (v : Word), w < 64 →
    (∃ t, busRead (BitVec.ofNat 12 (0x100 + 4 * w)) s = .next t ∧ t = { s with reply := t.reply } ∧
      t.reply = some ((s.dout.get (4 * w)).setWidth 32 ||| (s.dout.get (4 * w + 1)).setWidth 32 <<< 8 |||
        (s.dout.get (4 * w + 2)).setWidth 32 <<< 16 ||| (s.dout.get (4 * w + 3)).setWidth 32 <<< 24)) ∧
    (∀ i x y, i < 32 → busRead (BitVec.ofNat 12 (0x100 + 8 * i)) s = .next { s with reply := some x } →
      busRead (BitVec.ofNat 12 (0x104 + 8 * i)) s = .next { s with reply := some y } →
      bufLane s.dout i = x.setWidth 64 ||| y.setWidth 64 <<< 32) ∧
    busWrite (BitVec.ofNat 12 (0x100 + 4 * w)) v s = .next (recorded .busWriteRo s)

/-- R56: PLANE[j] reads S[j], lane i's bit j in its bit i; a write raises BUS_WRITE_RO and changes nothing. -/
def Obligations.PlanesAreReadOnly : Prop :=
  ∀ (s : State) (j : Nat) (v : Word), j < 64 →
    busRead (BitVec.ofNat 12 (0x200 + 4 * j)) s = .next { s with reply := some (s.planes.get j) } ∧
    (∀ i, i < 32 → (s.planes.get j).getLsbD i = (lane s.planes i).getLsbD j) ∧
    busWrite (BitVec.ofNat 12 (0x200 + 4 * j)) v s = .next (recorded .busWriteRo s)

/-- R57: KEY0 to KEY2 hold KEYIN, least significant word first; KEY2's upper half is ignored; and key byte i is where the rule says. -/
def Obligations.KeyInputIsThreeWords : Prop :=
  ∀ (s : State) (v : Word),
    busRead 0x300 s = .next { s with reply := some (s.keyin.extractLsb' 0 32) } ∧
    busRead 0x304 s = .next { s with reply := some (s.keyin.extractLsb' 32 32) } ∧
    busRead 0x308 s = .next { s with reply := some ((s.keyin.extractLsb' 64 16).setWidth 32) } ∧
    (∃ t, busWrite 0x300 v s = .next t ∧ t = { s with keyin := t.keyin } ∧
      t.keyin.extractLsb' 0 32 = v ∧ t.keyin.extractLsb' 32 48 = s.keyin.extractLsb' 32 48) ∧
    (∃ t, busWrite 0x304 v s = .next t ∧ t = { s with keyin := t.keyin } ∧ t.keyin.extractLsb' 32 32 = v ∧
      t.keyin.extractLsb' 0 32 = s.keyin.extractLsb' 0 32 ∧ t.keyin.extractLsb' 64 16 = s.keyin.extractLsb' 64 16) ∧
    (∃ t, busWrite 0x308 v s = .next t ∧ t = { s with keyin := t.keyin } ∧
      t.keyin.extractLsb' 64 16 = v.extractLsb' 0 16 ∧ t.keyin.extractLsb' 0 64 = s.keyin.extractLsb' 0 64) ∧
    (∀ i x, i < 10 → busRead (BitVec.ofNat 12 (0x300 + 4 * (i / 4))) s = .next { s with reply := some x } →
      x.extractLsb' (8 * (i % 4)) 8 = s.keyin.extractLsb' (8 * i) 8) ∧
    (∃ t u w, busWrite 0x308 0x00000123 s = .next t ∧ busWrite 0x304 0x456789AB t = .next u ∧ busWrite 0x300 0xCDEF0123 u = .next w ∧
      w = { s with keyin := 0x0123456789ABCDEF0123 })

/-- R58: KREG0 to KREG2 read K; a write raises BUS_WRITE_RO and changes nothing. -/
def Obligations.KeyRegisterIsReadableAndReadOnly : Prop :=
  ∀ (s : State) (v : Word),
    busRead 0x310 s = .next { s with reply := some (s.k.extractLsb' 0 32) } ∧
    busRead 0x314 s = .next { s with reply := some (s.k.extractLsb' 32 32) } ∧
    busRead 0x318 s = .next { s with reply := some ((s.k.extractLsb' 64 16).setWidth 32) } ∧
    busWrite 0x310 v s = .next (recorded .busWriteRo s) ∧
    busWrite 0x314 v s = .next (recorded .busWriteRo s) ∧
    busWrite 0x318 v s = .next (recorded .busWriteRo s)

/-- R59: reserved bits of mapped registers read 0; a write to those of CTRL, STATUS and KEY2 is ignored and raises no error; every write
to KREG2 raises BUS_WRITE_RO. -/
def Obligations.ReservedBitsReadZeroAndIgnoreWrites : Prop :=
  ∀ (s : State) (v : Word),
    (∀ x, busRead 0x320 s = .next { s with reply := some x } → x.toNat < 2) ∧
    (∀ x, busRead 0x324 s = .next { s with reply := some x } → x.extractLsb' 10 6 = 0 ∧ x.extractLsb' 21 11 = 0) ∧
    (∀ x, busRead 0x308 s = .next { s with reply := some x } → x.toNat < 2 ^ 16) ∧
    (∀ x, busRead 0x318 s = .next { s with reply := some x } → x.toNat < 2 ^ 16) ∧
    (∃ t, busWrite 0x320 v s = .next t ∧ busWrite 0x320 (v &&& 0x00000001) s = .next t ∧ t.err = s.err ∧ t.ecause = s.ecause) ∧
    (∃ t, busWrite 0x324 v s = .next t ∧ busWrite 0x324 (v &&& 0x001F03FF) s = .next t ∧ (s.err = false → t.err = false)) ∧
    (∃ t, busWrite 0x308 v s = .next t ∧ busWrite 0x308 (v &&& 0x0000FFFF) s = .next t ∧ t.err = s.err ∧ t.ecause = s.ecause) ∧
    busWrite 0x318 v s = .next (recorded .busWriteRo s)

/-- R60: reading an offset leaves every state element unchanged, but for the error of an unmapped read; two reads of a mapped offset
answer the same. -/
def Obligations.ReadsHaveNoSideEffect : Prop :=
  ∀ (off : Offset) (s : State), off.toNat % 4 = 0 →
    (regAt off ≠ none → ∃ t, busRead off s = .next t ∧ t = { s with reply := t.reply } ∧ busRead off t = .next t) ∧
    (regAt off = none → ∃ t, busRead off s = .next t ∧ t = { recorded .busUnmapped s with reply := t.reply })

/-- R61 with R53's list of unmapped offsets: 0x30C, 0x31C and 0x32C to 0xFFC. -/
def Obligations.UnmappedAccessesRaiseAnError : Prop :=
  ∀ (off : Offset) (v : Word) (s : State), off.toNat % 4 = 0 →
    (off = 0x30C ∨ off = 0x31C ∨ 0x32C ≤ off.toNat →
      busRead off s = .next { recorded .busUnmapped s with reply := some 0 } ∧ busWrite off v s = .next (recorded .busUnmapped s)) ∧
    (¬ (off = 0x30C ∨ off = 0x31C ∨ 0x32C ≤ off.toNat) →
      ∃ t, busRead off s = .next t ∧ t.err = s.err ∧ t.ecause = s.ecause ∧ t.reply ≠ none)

/-- R35: a CTRL write sets IRQEN from bit 0; a read returns it. -/
def Obligations.CtrlHoldsTheInterruptEnable : Prop :=
  ∀ (s : State) (v : Word),
    busWrite 0x320 v s = .next { s with irqen := v.getLsbD 0 } ∧
    busRead 0x320 s = .next { s with reply := some (if s.irqen then 0x00000001 else 0x00000000) }

/-- R36: each field of STATUS is where the table says, the reserved fields read 0, DONE and ERR are cleared by writing 1, the fields a
write does not touch stay, and all are 0 after reset. -/
def Obligations.StatusFieldsAreWhereTheTableSays : Prop :=
  ∀ s : State, ∃ x, busRead 0x324 s = .next { s with reply := some x } ∧
    x.getLsbD 0 = (s.fsm == .round || s.fsm == .final) ∧
    x.getLsbD 1 = s.done ∧ x.getLsbD 2 = s.err ∧ x.getLsbD 3 = (s.irqen && s.done) ∧
    x.extractLsb' 4 4 = s.ecause ∧
    x.extractLsb' 8 2 = (match s.fsm with | .idle => 0 | .round => 1 | .final => 2 | .done => 3) ∧
    x.extractLsb' 10 6 = 0 ∧ x.extractLsb' 16 5 = s.rc ∧ x.extractLsb' 21 11 = 0 ∧
    (∀ v t, busWrite 0x324 v s = .next t →
      t.fsm = s.fsm ∧ t.rc = s.rc ∧ t.irqen = s.irqen ∧ t.done = (s.done && !v.getLsbD 1) ∧ t.err = (s.err && !v.getLsbD 2)) ∧
    (resetEvent s).statusWord = 0

/-- R40: a STATUS write clears DONE by bit 1, and ERR with ECAUSE by bit 2; all other bits are ignored, and no error is raised. -/
def Obligations.StatusWriteClearsByOnes : Prop :=
  ∀ (s : State) (v : Word), ∃ t, busWrite 0x324 v s = .next t ∧
    t = { s with done := t.done, err := t.err, ecause := t.ecause } ∧
    t.done = (if v.getLsbD 1 then false else s.done) ∧
    (v.getLsbD 2 = true → t.err = false ∧ t.ecause = 0) ∧
    (v.getLsbD 2 = false → t.err = s.err ∧ t.ecause = s.ecause)

/-- R41: CMD holds no state: a write executes the word, a read returns 0 and raises no error. -/
def Obligations.CmdExecutesWritesAndReadsZero : Prop :=
  ∀ (s : State) (w : Word),
    busWrite 0x328 w s = runCommand w s ∧ busRead 0x328 s = .next { s with reply := some 0 }

/-- Host address CORE_BASE + off reaches offset off, whatever CORE_BASE is (20_memory.md section 1). That an address outside the 4 KiB window
reaches none is the model's choice, log entry 7, DESIGN CHOICE. -/
def Obligations.HostAddressReachesItsOffset : Prop :=
  (∀ off : Offset, offsetOf (Config.coreBase + off.toNat) = some off) ∧
  (∀ a : Nat, a < Config.coreBase ∨ Config.coreBase + 0x1000 ≤ a → offsetOf a = none)

/-- What the CORE holds is all readable (10_state.md section 8): two states whose mapped registers all read the same agree on every piece
of the CORE's state. -/
def Obligations.NothingIsHiddenFromTheHost : Prop :=
  ∀ s t : State, (∀ (off : Offset) (x : Word), off.toNat % 4 = 0 → regAt off ≠ none →
      busRead off s = .next { s with reply := some x } → busRead off t = .next { t with reply := some x }) →
    s.planes = t.planes ∧ s.k = t.k ∧ s.rc = t.rc ∧ s.fsm = t.fsm ∧ s.din = t.din ∧ s.dout = t.dout ∧ s.keyin = t.keyin ∧
      s.irqen = t.irqen ∧ s.done = t.done ∧ s.err = t.err ∧ s.ecause = t.ecause

/-! ### Errors, the interrupt and reset -/

/-- R222: what raising an error does, with R221's codes; the transaction that raises one does nothing else: a rejected command word, a
write to a read-only or unmapped offset; and a read that raises one returns 0. -/
def Obligations.FirstErrorWins : Prop :=
  ∀ s : State,
    (∀ c, s.err = true → raiseError c s = s) ∧
    (s.err = false →
      raiseError .cmdIllegalOp s = { s with err := true, ecause := 1 } ∧
      raiseError .cmdReservedBits s = { s with err := true, ecause := 2 } ∧
      raiseError .cmdBusy s = { s with err := true, ecause := 3 } ∧
      raiseError .busUnmapped s = { s with err := true, ecause := 4 } ∧
      raiseError .busWriteRo s = { s with err := true, ecause := 5 }) ∧
    (∀ w, decode w = .rejected .illegalOp → runCommand w s = .next (raiseError .cmdIllegalOp s)) ∧
    (∀ w, decode w = .rejected .reservedBits → runCommand w s = .next (raiseError .cmdReservedBits s)) ∧
    (∀ i, i ≠ .nop → s.busy = true → exec i s = .next (raiseError .cmdBusy s)) ∧
    (∀ off v, off.toNat % 4 = 0 → regAt off = none →
      busWrite off v s = .next (raiseError .busUnmapped s) ∧
      busRead off s = .next { raiseError .busUnmapped s with reply := some 0 }) ∧
    (∀ off v, off.toNat % 4 = 0 → (0x100 ≤ off.toNat ∧ off.toNat < 0x300 ∨ off = 0x310 ∨ off = 0x314 ∨ off = 0x318) →
      busWrite off v s = .next (raiseError .busWriteRo s))

/-- An error disturbs nothing (60_exceptions.md section 3): a step in which ERR becomes 1 is the host's, and changes nothing of the CORE
but ERR and ECAUSE. -/
def Obligations.ErrorsDisturbNothing : Prop :=
  ∀ s t : State, step s = .next t → s.err = false → t.err = true →
    s.nextTurn = .host ∧ 1 ≤ t.ecause.toNat ∧ t.ecause.toNat ≤ 5 ∧
    t = { s with err := true, ecause := t.ecause, hostOps := t.hostOps, order := t.order, reply := t.reply }

/-- The completion interrupt (60_exceptions.md section 4): irq is IRQEN and DONE, STATUS bit 3 mirrors it, errors do not raise it, and it
is cleared by a STATUS write with bit 1 set, by START, by IRQEN <- 0 and by reset. -/
def Obligations.IrqIsLevelAndClearedAsListed : Prop :=
  ∀ s : State,
    s.irq = (s.irqen && s.done) ∧ s.statusWord.getLsbD 3 = s.irq ∧ (∀ c, (raiseError c s).irq = s.irq) ∧
    (∀ v t, v.getLsbD 1 = true → busWrite 0x324 v s = .next t → t.irq = false) ∧
    (∀ t, s.busy = false → exec .start s = .next t → t.irq = false) ∧
    (∀ v t, v.getLsbD 0 = false → busWrite 0x320 v s = .next t → t.irq = false) ∧
    (resetEvent s).irq = false

/-- R250: a reset event is one event of the order, with no host transaction or core step in it; its assignments; after it STATUS and CTRL
read 0, BUSY is 0 and irq is low. What `resetEvent` makes of the datapath and of the model's own fields is log entries 5 and 18. -/
def Obligations.ResetEventResetsTheControlState : Prop :=
  ∀ s : State,
    (s.nextTurn = .reset → step s = .next (resetEvent { s with order := s.order.tail, reply := none })) ∧ ∃ t, resetEvent s = t ∧
    t.fsm = .idle ∧ t.rc = 0 ∧ t.done = false ∧ t.err = false ∧ t.ecause = 0 ∧ t.irqen = false ∧
    busRead 0x324 t = .next { t with reply := some 0x00000000 } ∧ busRead 0x320 t = .next { t with reply := some 0x00000000 } ∧
    t.busy = false ∧ t.irq = false

/-- A reset event draws the datapath's content, a free value per bit, a new one at each event (70_reset_and_hazards.md section 1; the
form of the draw is log entry 5, DESIGN CHOICE), and each command that consumes a drawn value computes its normal function of it, with no
error. That the host's operations and the rest of the order are left as they are is log entry 18, DESIGN CHOICE. -/
def Obligations.ResetEventDrawsTheDatapath : Prop :=
  ∀ s : State, s.nextTurn = .reset → ∃ t, step s = .next t ∧ t.draws = s.draws + 1 ∧ t.hostOps = s.hostOps ∧ t.order = s.order.tail ∧
    (∀ j, j < 64 → t.planes.get j = Config.drawPlane s.draws j) ∧ t.k = Config.drawKey s.draws ∧ t.keyin = Config.drawKeyin s.draws ∧
    (∀ b, b < 256 → t.din.get b = Config.drawDin s.draws b) ∧ (∀ b, b < 256 → t.dout.get b = Config.drawDout s.draws b) ∧
    t.Inv ∧
    (∃ u, exec .start t = .next u ∧ Encrypting t.keyin t.din u ∧ u.err = false) ∧
    exec .load t = .next { t with planes := toBitplanes t.din } ∧
    exec .ldkey t = .next { t with k := t.keyin } ∧
    exec .unload t = .next { t with dout := fromBitplanes t.planes } ∧
    exec .mix t = .next { t with planes := mix t.planes (t.k.extractLsb' 16 64) } ∧
    exec .sub t = .next { t with planes := substitute t.planes } ∧
    exec .perm t = .next { t with planes := permute t.planes } ∧
    (∀ r, exec (.kadv r) t = .next { t with k := advance t.k r })
end

