-- ==== Sys2Proof/Laws/Arr.lean ====
section
/-! SUPPORT. Arrays and bit vectors built cell by cell: what each cell holds, and equality by cells. -/

namespace Sys2Proof.Machine

theorem nth_tabFrom {α : Type} (d : α) (f : Nat → α) (k n i : Nat) (h : i < n) : nth d (tabFrom f k n) i = f (k + i) := by
  induction n generalizing k i with
  | zero => omega
  | succ n ih =>
    cases i with
    | zero => rfl
    | succ i =>
      show nth d (tabFrom f (k + 1) n) i = f (k + (i + 1))
      rw [ih (k + 1) i (by omega), Nat.add_right_comm, Nat.add_assoc]

theorem nth_eq_getElem {α : Type} (d : α) (l : List α) (i : Nat) (h : i < l.length) : nth d l i = l[i] := by
  induction l generalizing i with
  | nil => exact absurd h (by simp)
  | cons x l ih =>
    cases i with
    | zero => rfl
    | succ i => exact ih i (by simpa using h)

@[simp] theorem Arr.get_tab {α : Type} [Inhabited α] {n : Nat} (f : Nat → α) {i : Nat} (h : i < n) : (Arr.tab n f).get i = f i := by
  have := nth_tabFrom default f 0 n i h
  simpa [Arr.tab, Arr.get] using this

/-- Arrays with equal cells are equal. -/
theorem Arr.ext_get {α : Type} [Inhabited α] {n : Nat} {a b : Arr α n} (h : ∀ i, i < n → a.get i = b.get i) : a = b := by
  obtain ⟨la, ha⟩ := a
  obtain ⟨lb, hb⟩ := b
  have : la = lb := by
    apply List.ext_getElem (ha.trans hb.symm)
    intro i h1 h2
    have := h i (by omega)
    rwa [Arr.get, Arr.get, nth_eq_getElem _ _ _ h1, nth_eq_getElem _ _ _ h2] at this
  subst this
  rfl

theorem bitsNat_lt (n : Nat) (f : Nat → Bool) : bitsNat n f < 2 ^ n := by
  induction n with
  | zero => simp [bitsNat]
  | succ n ih =>
    have : (bif f n then 2 ^ n else 0) ≤ 2 ^ n := by cases f n <;> simp
    simp only [bitsNat, Nat.pow_succ]
    omega

theorem testBit_bitsNat (n : Nat) (f : Nat → Bool) (i : Nat) : (bitsNat n f).testBit i = (decide (i < n) && f i) := by
  induction n with
  | zero => simp [bitsNat]
  | succ n ih =>
    have hlt := bitsNat_lt n f
    cases hf : f n with
    | false =>
      have h0 : bitsNat (n + 1) f = bitsNat n f := by simp [bitsNat, hf]
      rw [h0, ih]
      rcases Nat.lt_trichotomy i n with h | h | h
      · simp [h, Nat.lt_succ_of_lt h]
      · subst h; simp [hf]
      · simp [Nat.not_lt.mpr (Nat.le_of_lt h), Nat.not_lt.mpr (show n + 1 ≤ i by omega)]
    | true =>
      have h1 : bitsNat (n + 1) f = 2 ^ n + bitsNat n f := by simp [bitsNat, hf, Nat.add_comm]
      rw [h1]
      rcases Nat.lt_trichotomy i n with h | h | h
      · rw [Nat.testBit_two_pow_add_gt h, ih]; simp [h, Nat.lt_succ_of_lt h]
      · subst h; rw [Nat.testBit_two_pow_add_eq, ih]; simp [hf]
      · rw [Nat.testBit_lt_two_pow]
        · simp [Nat.not_lt.mpr (show n + 1 ≤ i by omega)]
        · have : 2 ^ (n + 1) ≤ 2 ^ i := Nat.pow_le_pow_right (by omega) (by omega)
          rw [Nat.pow_succ] at this
          omega

@[simp] theorem getLsbD_bits (n : Nat) (f : Nat → Bool) (i : Nat) : (bits n f).getLsbD i = (decide (i < n) && f i) := by
  rw [bits, BitVec.getLsbD_ofNat, testBit_bitsNat]
  cases decide (i < n) <;> simp

@[simp] theorem getElem_bits (n : Nat) (f : Nat → Bool) (i : Nat) (h : i < n) : (bits n f)[i] = f i := by
  rw [← BitVec.getLsbD_eq_getElem, getLsbD_bits]
  simp [h]

end Sys2Proof.Machine
end

