-- ==== Sys2Proof/Laws/Cipher.lean ====
section
/-! SUPPORT. What each cipher function computes, bit by bit and lane by lane. -/

namespace Sys2Proof.Machine

theorem block_ext {x y : Block} (h : ∀ j, j < 64 → x.getLsbD j = y.getLsbD j) : x = y :=
  BitVec.eq_of_getLsbD_eq h

/-- Planes are equal when all their lane views are. -/
theorem planes_ext_lane {S T : Planes} (h : ∀ i, i < 32 → lane S i = lane T i) : S = T := by
  apply Arr.ext_get
  intro j hj
  apply BitVec.eq_of_getLsbD_eq
  intro i hi
  have := congrArg (·.getLsbD j) (h i hi)
  simpa [lane, hj] using this

theorem getLsbD_lane (S : Planes) (i : Nat) {j : Nat} (hj : j < 64) : (lane S i).getLsbD j = (S.get j).getLsbD i := by
  simp [lane, hj]

theorem getLsbD_bufWord (D : Buffer) (n : Nat) {b : Nat} (hb : b < 32) :
    (bufWord D n).getLsbD b = (D.get (4 * n + b / 8)).getLsbD (b % 8) := by
  simp only [bufWord, BitVec.getLsbD_append]
  rcases (by omega : b / 8 = 0 ∨ b / 8 = 1 ∨ b / 8 = 2 ∨ b / 8 = 3) with h | h | h | h <;> rw [h]
  · rw [if_pos (by omega), show b % 8 = b by omega]; rfl
  · rw [if_neg (by omega), if_pos (by omega), show b % 8 = b - 8 by omega]
  · rw [if_neg (by omega), if_neg (by omega), if_pos (by omega), show b % 8 = b - 8 - 8 by omega]
  · rw [if_neg (by omega), if_neg (by omega), if_neg (by omega), show b % 8 = b - 8 - 8 - 8 by omega]

/-- Bit `j` of lane `i` of a buffer is bit `j mod 8` of its byte `8i + floor(j/8)` (R8). -/
theorem getLsbD_bufLane (D : Buffer) (i : Nat) {j : Nat} (hj : j < 64) :
    (bufLane D i).getLsbD j = (D.get (8 * i + j / 8)).getLsbD (j % 8) := by
  simp only [bufLane, BitVec.getLsbD_append]
  split
  · next h =>
    rw [getLsbD_bufWord _ _ h]
    congr 2
    omega
  · next h =>
    rw [getLsbD_bufWord _ _ (by omega), show 4 * (2 * i + 1) + (j - 32) / 8 = 8 * i + j / 8 by omega,
      show (j - 32) % 8 = j % 8 by omega]

/-- Buffers are equal when all their lanes are. -/
theorem buffer_ext_lane {D E : Buffer} (h : ∀ i, i < 32 → bufLane D i = bufLane E i) : D = E := by
  apply Arr.ext_get
  intro n hn
  apply BitVec.eq_of_getLsbD_eq
  intro b hb
  have := congrArg (·.getLsbD (8 * (n % 8) + b)) (h (n / 8) (by omega))
  simp only [getLsbD_bufLane _ _ (show 8 * (n % 8) + b < 64 by omega)] at this
  rwa [show 8 * (n / 8) + (8 * (n % 8) + b) / 8 = n by omega, show (8 * (n % 8) + b) % 8 = b by omega] at this

theorem getLsbD_toBitplanes (D : Buffer) {j i : Nat} (hj : j < 64) (hi : i < 32) :
    ((toBitplanes D).get j).getLsbD i = (D.get (8 * i + j / 8)).getLsbD (j % 8) := by
  simp [toBitplanes, hj, hi]

theorem lane_toBitplanes (D : Buffer) {i : Nat} (hi : i < 32) : lane (toBitplanes D) i = bufLane D i := by
  apply block_ext
  intro j hj
  rw [getLsbD_lane _ _ hj, getLsbD_toBitplanes _ hj hi, getLsbD_bufLane _ _ hj]

theorem getLsbD_fromBitplanes (T : Planes) {n b : Nat} (hn : n < 256) (hb : b < 8) :
    ((fromBitplanes T).get n).getLsbD b = (T.get (8 * (n % 8) + b)).getLsbD (n / 8) := by
  simp [fromBitplanes, hn, hb]

theorem bufLane_fromBitplanes (T : Planes) {i : Nat} (hi : i < 32) : bufLane (fromBitplanes T) i = lane T i := by
  apply block_ext
  intro j hj
  rw [getLsbD_bufLane _ _ hj, getLsbD_fromBitplanes _ (by omega) (by omega), getLsbD_lane _ _ hj]
  rw [show (8 * i + j / 8) / 8 = i by omega, show 8 * ((8 * i + j / 8) % 8) + j % 8 = j by omega]

theorem get_mix (S : Planes) (rk : Block) {j : Nat} (hj : j < 64) :
    (mix S rk).get j = S.get j ^^^ (if rk.getLsbD j then 0xFFFFFFFF else 0x00000000) := by
  simp [mix, hj]

theorem lane_mix (S : Planes) (rk : Block) {i : Nat} (hi : i < 32) : lane (mix S rk) i = lane S i ^^^ rk := by
  apply block_ext
  intro j hj
  rw [getLsbD_lane _ _ hj, get_mix _ _ hj, BitVec.getLsbD_xor, BitVec.getLsbD_xor, getLsbD_lane _ _ hj]
  congr 1
  have hone : (0xFFFFFFFF : Plane).getLsbD i = true := by
    have : (0xFFFFFFFF : Plane) = BitVec.allOnes 32 := by decide
    rw [this, BitVec.getLsbD_allOnes]
    simpa using hi
  cases rk.getLsbD j
  · simp
  · simpa using hone

theorem permSource_lt {d : Nat} (h : d < 64) : permSource d < 64 := by unfold permSource; omega

theorem permIndex_lt {j : Nat} (h : j < 64) : permIndex j < 64 := by unfold permIndex; omega

theorem permSource_permIndex {j : Nat} (h : j < 64) : permSource (permIndex j) = j := by
  unfold permSource permIndex; omega

theorem get_permute (S : Planes) {d : Nat} (hd : d < 64) : (permute S).get d = S.get (permSource d) := by
  simp [permute, hd]

theorem lane_permute (S : Planes) (i : Nat) : lane (permute S) i = permuteBlock (lane S i) := by
  apply block_ext
  intro j hj
  rw [getLsbD_lane _ _ hj, get_permute _ hj]
  simp [permuteBlock, hj, getLsbD_lane _ _ (permSource_lt hj)]

theorem get_substitute (S : Planes) {j : Nat} (hj : j < 64) :
    (substitute S).get j =
      circuit (j % 4) (S.get (4 * (j / 4))) (S.get (4 * (j / 4) + 1)) (S.get (4 * (j / 4) + 2)) (S.get (4 * (j / 4) + 3)) := by
  simp [substitute, hj]

/-- The nibble of four bits, `x0` its least significant (R120). -/
def nibbleOf (x0 x1 x2 x3 : Bool) : Nibble := bits 4 fun m => match m with | 0 => x0 | 1 => x1 | 2 => x2 | _ => x3

/-- The circuit, in one lane, is the table (R122). -/
theorem getLsbD_circuit (x0 x1 x2 x3 : Plane) {m i : Nat} (hm : m < 4) (hi : i < 32) :
    (circuit m x0 x1 x2 x3).getLsbD i =
      (sbox (nibbleOf (x0.getLsbD i) (x1.getLsbD i) (x2.getLsbD i) (x3.getLsbD i))).getLsbD m := by
  have table : ∀ b0 b1 b2 b3 : Bool,
      (sbox (nibbleOf b0 b1 b2 b3)).getLsbD 0 = (b0 ^^ (b1 && b2) ^^ b2 ^^ b3) ∧
      (sbox (nibbleOf b0 b1 b2 b3)).getLsbD 1 =
        ((b0 && b1 && b2) ^^ (b0 && b1 && b3) ^^ (b1 && b3) ^^ b1 ^^ (b0 && b2 && b3) ^^ (b2 && b3) ^^ b3) ∧
      (sbox (nibbleOf b0 b1 b2 b3)).getLsbD 2 =
        !((b0 && b1) ^^ (b0 && b1 && b3) ^^ (b1 && b3) ^^ b2 ^^ (b0 && b3) ^^ (b0 && b2 && b3) ^^ b3) ∧
      (sbox (nibbleOf b0 b1 b2 b3)).getLsbD 3 =
        !((b0 && b1 && b2) ^^ (b0 && b1 && b3) ^^ (b0 && b2 && b3) ^^ b0 ^^ b1 ^^ (b1 && b2) ^^ b3) := by
    decide +kernel
  obtain ⟨h0, h1, h2, h3⟩ := table (x0.getLsbD i) (x1.getLsbD i) (x2.getLsbD i) (x3.getLsbD i)
  rcases (by omega : m = 0 ∨ m = 1 ∨ m = 2 ∨ m = 3) with rfl | rfl | rfl | rfl
  · rw [h0]; simp [circuit, circuit0]
  · rw [h1]; simp [circuit, circuit1]
  · rw [h2]; simp [circuit, circuit2, hi]
  · rw [h3]; simp [circuit, circuit3, hi]

theorem nibbleOf_extract (x : Block) (k : Nat) :
    nibbleOf (x.getLsbD k) (x.getLsbD (k + 1)) (x.getLsbD (k + 2)) (x.getLsbD (k + 3)) = x.extractLsb' k 4 := by
  apply BitVec.eq_of_getLsbD_eq
  intro m hm
  rcases (by omega : m = 0 ∨ m = 1 ∨ m = 2 ∨ m = 3) with rfl | rfl | rfl | rfl <;> simp [nibbleOf]

theorem lane_substitute (S : Planes) {i : Nat} (hi : i < 32) : lane (substitute S) i = substituteBlock (lane S i) := by
  apply block_ext
  intro j hj
  have h4 : 4 * (j / 4) + 3 < 64 := by omega
  rw [getLsbD_lane _ _ hj, get_substitute _ hj, getLsbD_circuit _ _ _ _ (by omega) hi]
  simp only [substituteBlock, getLsbD_bits, hj, decide_true, Bool.true_and]
  rw [← nibbleOf_extract, getLsbD_lane _ _ (by omega), getLsbD_lane _ _ (by omega), getLsbD_lane _ _ (by omega),
    getLsbD_lane _ _ h4]

/-- One round of the engine, lane by lane, is the block round (R194, R197). -/
theorem lane_round (S : Planes) (K : Key) {i : Nat} (hi : i < 32) :
    lane (permute (substitute (mix S (roundKey K)))) i = roundBlock K (lane S i) := by
  rw [lane_permute, lane_substitute _ hi, lane_mix _ _ hi]
  rfl

theorem getLsbD_roundKey (K : Key) {j : Nat} (hj : j < 64) : (roundKey K).getLsbD j = K.getLsbD (16 + j) := by
  simp [roundKey, hj]

/-- Step 1 of the key update moves bit `(i + 19) mod 80` to bit `i` (R160). -/
theorem getLsbD_rotateKey (K : Key) {i : Nat} (hi : i < 80) : (rotateKey K).getLsbD i = K.getLsbD ((i + 19) % 80) := by
  rw [rotateKey, BitVec.getLsbD_rotateLeft]
  by_cases h : i < 61
  · simp [h, show (i + 19) % 80 = 19 + i by omega]
  · simp [h, hi, show (i + 19) % 80 = i - 61 by omega]

theorem getLsbD_substituteTop (K : Key) (i : Nat) :
    (substituteTop K).getLsbD i = if i < 76 then K.getLsbD i else (sbox (K.extractLsb' 76 4)).getLsbD (i - 76) := by
  unfold substituteTop
  rw [BitVec.getLsbD_append]
  split
  · next h => simp [h]
  · rfl

theorem getLsbD_xorRound (K : Key) (r : Round) {i : Nat} (hi : i < 80) :
    (xorRound K r).getLsbD i = (K.getLsbD i ^^ (decide (15 ≤ i) && r.getLsbD (i - 15))) := by
  rw [xorRound, BitVec.getLsbD_xor, BitVec.getLsbD_shiftLeft, BitVec.getLsbD_setWidth]
  by_cases h : i < 15
  · simp [h, Nat.not_le.mpr h]
  · simp [h, hi, Nat.le_of_not_lt h, show i - 15 < 80 by omega]

end Sys2Proof.Machine
end

