-- ==== Sys2Proof/Laws/State.lean ====
section
/-! SUPPORT. One lemma per field for each update of the state that the step is made of, true by the definition; and the forms in which
an error's record is used. -/

namespace Sys2Proof.Machine

@[simp] theorem recorded_planes (c : Cause) (s : State) : (recorded c s).planes = s.planes := rfl
@[simp] theorem recorded_k (c : Cause) (s : State) : (recorded c s).k = s.k := rfl
@[simp] theorem recorded_rc (c : Cause) (s : State) : (recorded c s).rc = s.rc := rfl
@[simp] theorem recorded_fsm (c : Cause) (s : State) : (recorded c s).fsm = s.fsm := rfl
@[simp] theorem recorded_din (c : Cause) (s : State) : (recorded c s).din = s.din := rfl
@[simp] theorem recorded_dout (c : Cause) (s : State) : (recorded c s).dout = s.dout := rfl
@[simp] theorem recorded_keyin (c : Cause) (s : State) : (recorded c s).keyin = s.keyin := rfl
@[simp] theorem recorded_irqen (c : Cause) (s : State) : (recorded c s).irqen = s.irqen := rfl
@[simp] theorem recorded_done (c : Cause) (s : State) : (recorded c s).done = s.done := rfl
@[simp] theorem recorded_err (c : Cause) (s : State) : (recorded c s).err = true := rfl
@[simp] theorem recorded_ecause (c : Cause) (s : State) : (recorded c s).ecause = if s.err then s.ecause else c.code := rfl
@[simp] theorem recorded_hostOps (c : Cause) (s : State) : (recorded c s).hostOps = s.hostOps := rfl
@[simp] theorem recorded_order (c : Cause) (s : State) : (recorded c s).order = s.order := rfl
@[simp] theorem recorded_reply (c : Cause) (s : State) : (recorded c s).reply = s.reply := rfl
@[simp] theorem recorded_draws (c : Cause) (s : State) : (recorded c s).draws = s.draws := rfl

@[simp] theorem State.beginTurn_planes (s : State) : s.beginTurn.planes = s.planes := rfl
@[simp] theorem State.beginTurn_k (s : State) : s.beginTurn.k = s.k := rfl
@[simp] theorem State.beginTurn_rc (s : State) : s.beginTurn.rc = s.rc := rfl
@[simp] theorem State.beginTurn_fsm (s : State) : s.beginTurn.fsm = s.fsm := rfl
@[simp] theorem State.beginTurn_din (s : State) : s.beginTurn.din = s.din := rfl
@[simp] theorem State.beginTurn_dout (s : State) : s.beginTurn.dout = s.dout := rfl
@[simp] theorem State.beginTurn_keyin (s : State) : s.beginTurn.keyin = s.keyin := rfl
@[simp] theorem State.beginTurn_irqen (s : State) : s.beginTurn.irqen = s.irqen := rfl
@[simp] theorem State.beginTurn_done (s : State) : s.beginTurn.done = s.done := rfl
@[simp] theorem State.beginTurn_err (s : State) : s.beginTurn.err = s.err := rfl
@[simp] theorem State.beginTurn_ecause (s : State) : s.beginTurn.ecause = s.ecause := rfl
@[simp] theorem State.beginTurn_hostOps (s : State) : s.beginTurn.hostOps = s.hostOps := rfl
@[simp] theorem State.beginTurn_order (s : State) : s.beginTurn.order = s.order.tail := rfl
@[simp] theorem State.beginTurn_reply (s : State) : s.beginTurn.reply = none := rfl
@[simp] theorem State.beginTurn_draws (s : State) : s.beginTurn.draws = s.draws := rfl

@[simp] theorem State.atHostOp_planes (s : State) (rest : List HostOp) : (s.atHostOp rest).planes = s.planes := rfl
@[simp] theorem State.atHostOp_k (s : State) (rest : List HostOp) : (s.atHostOp rest).k = s.k := rfl
@[simp] theorem State.atHostOp_rc (s : State) (rest : List HostOp) : (s.atHostOp rest).rc = s.rc := rfl
@[simp] theorem State.atHostOp_fsm (s : State) (rest : List HostOp) : (s.atHostOp rest).fsm = s.fsm := rfl
@[simp] theorem State.atHostOp_din (s : State) (rest : List HostOp) : (s.atHostOp rest).din = s.din := rfl
@[simp] theorem State.atHostOp_dout (s : State) (rest : List HostOp) : (s.atHostOp rest).dout = s.dout := rfl
@[simp] theorem State.atHostOp_keyin (s : State) (rest : List HostOp) : (s.atHostOp rest).keyin = s.keyin := rfl
@[simp] theorem State.atHostOp_irqen (s : State) (rest : List HostOp) : (s.atHostOp rest).irqen = s.irqen := rfl
@[simp] theorem State.atHostOp_done (s : State) (rest : List HostOp) : (s.atHostOp rest).done = s.done := rfl
@[simp] theorem State.atHostOp_err (s : State) (rest : List HostOp) : (s.atHostOp rest).err = s.err := rfl
@[simp] theorem State.atHostOp_ecause (s : State) (rest : List HostOp) : (s.atHostOp rest).ecause = s.ecause := rfl
@[simp] theorem State.atHostOp_hostOps (s : State) (rest : List HostOp) : (s.atHostOp rest).hostOps = rest := rfl
@[simp] theorem State.atHostOp_order (s : State) (rest : List HostOp) : (s.atHostOp rest).order = s.order.tail := rfl
@[simp] theorem State.atHostOp_reply (s : State) (rest : List HostOp) : (s.atHostOp rest).reply = none := rfl
@[simp] theorem State.atHostOp_draws (s : State) (rest : List HostOp) : (s.atHostOp rest).draws = s.draws := rfl

@[simp] theorem State.writeCtrl_planes (s : State) (v : Word) : (s.writeCtrl v).planes = s.planes := rfl
@[simp] theorem State.writeCtrl_k (s : State) (v : Word) : (s.writeCtrl v).k = s.k := rfl
@[simp] theorem State.writeCtrl_rc (s : State) (v : Word) : (s.writeCtrl v).rc = s.rc := rfl
@[simp] theorem State.writeCtrl_fsm (s : State) (v : Word) : (s.writeCtrl v).fsm = s.fsm := rfl
@[simp] theorem State.writeCtrl_din (s : State) (v : Word) : (s.writeCtrl v).din = s.din := rfl
@[simp] theorem State.writeCtrl_dout (s : State) (v : Word) : (s.writeCtrl v).dout = s.dout := rfl
@[simp] theorem State.writeCtrl_keyin (s : State) (v : Word) : (s.writeCtrl v).keyin = s.keyin := rfl
@[simp] theorem State.writeCtrl_irqen (s : State) (v : Word) : (s.writeCtrl v).irqen = v.getLsbD 0 := rfl
@[simp] theorem State.writeCtrl_done (s : State) (v : Word) : (s.writeCtrl v).done = s.done := rfl
@[simp] theorem State.writeCtrl_err (s : State) (v : Word) : (s.writeCtrl v).err = s.err := rfl
@[simp] theorem State.writeCtrl_ecause (s : State) (v : Word) : (s.writeCtrl v).ecause = s.ecause := rfl
@[simp] theorem State.writeCtrl_hostOps (s : State) (v : Word) : (s.writeCtrl v).hostOps = s.hostOps := rfl
@[simp] theorem State.writeCtrl_order (s : State) (v : Word) : (s.writeCtrl v).order = s.order := rfl
@[simp] theorem State.writeCtrl_reply (s : State) (v : Word) : (s.writeCtrl v).reply = s.reply := rfl
@[simp] theorem State.writeCtrl_draws (s : State) (v : Word) : (s.writeCtrl v).draws = s.draws := rfl

@[simp] theorem State.writeStatus_planes (s : State) (v : Word) : (s.writeStatus v).planes = s.planes := rfl
@[simp] theorem State.writeStatus_k (s : State) (v : Word) : (s.writeStatus v).k = s.k := rfl
@[simp] theorem State.writeStatus_rc (s : State) (v : Word) : (s.writeStatus v).rc = s.rc := rfl
@[simp] theorem State.writeStatus_fsm (s : State) (v : Word) : (s.writeStatus v).fsm = s.fsm := rfl
@[simp] theorem State.writeStatus_din (s : State) (v : Word) : (s.writeStatus v).din = s.din := rfl
@[simp] theorem State.writeStatus_dout (s : State) (v : Word) : (s.writeStatus v).dout = s.dout := rfl
@[simp] theorem State.writeStatus_keyin (s : State) (v : Word) : (s.writeStatus v).keyin = s.keyin := rfl
@[simp] theorem State.writeStatus_irqen (s : State) (v : Word) : (s.writeStatus v).irqen = s.irqen := rfl
@[simp] theorem State.writeStatus_done (s : State) (v : Word) : (s.writeStatus v).done = (s.done && !v.getLsbD 1) := rfl
@[simp] theorem State.writeStatus_err (s : State) (v : Word) : (s.writeStatus v).err = (s.err && !v.getLsbD 2) := rfl
@[simp] theorem State.writeStatus_ecause (s : State) (v : Word) : (s.writeStatus v).ecause = if v.getLsbD 2 then 0 else s.ecause := rfl
@[simp] theorem State.writeStatus_hostOps (s : State) (v : Word) : (s.writeStatus v).hostOps = s.hostOps := rfl
@[simp] theorem State.writeStatus_order (s : State) (v : Word) : (s.writeStatus v).order = s.order := rfl
@[simp] theorem State.writeStatus_reply (s : State) (v : Word) : (s.writeStatus v).reply = s.reply := rfl
@[simp] theorem State.writeStatus_draws (s : State) (v : Word) : (s.writeStatus v).draws = s.draws := rfl

@[simp] theorem roundStep_planes (s : State) : (roundStep s).planes = permute (substitute (mix s.planes (roundKey s.k))) := rfl
@[simp] theorem roundStep_k (s : State) : (roundStep s).k = advance s.k s.rc := rfl
@[simp] theorem roundStep_rc (s : State) : (roundStep s).rc = if s.rc < Config.rounds then s.rc + 1 else s.rc := rfl
@[simp] theorem roundStep_fsm (s : State) : (roundStep s).fsm = if s.rc < Config.rounds then .round else .final := rfl
@[simp] theorem roundStep_din (s : State) : (roundStep s).din = s.din := rfl
@[simp] theorem roundStep_dout (s : State) : (roundStep s).dout = s.dout := rfl
@[simp] theorem roundStep_keyin (s : State) : (roundStep s).keyin = s.keyin := rfl
@[simp] theorem roundStep_irqen (s : State) : (roundStep s).irqen = s.irqen := rfl
@[simp] theorem roundStep_done (s : State) : (roundStep s).done = s.done := rfl
@[simp] theorem roundStep_err (s : State) : (roundStep s).err = s.err := rfl
@[simp] theorem roundStep_ecause (s : State) : (roundStep s).ecause = s.ecause := rfl
@[simp] theorem roundStep_hostOps (s : State) : (roundStep s).hostOps = s.hostOps := rfl
@[simp] theorem roundStep_order (s : State) : (roundStep s).order = s.order := rfl
@[simp] theorem roundStep_reply (s : State) : (roundStep s).reply = s.reply := rfl
@[simp] theorem roundStep_draws (s : State) : (roundStep s).draws = s.draws := rfl

@[simp] theorem finalStep_planes (s : State) : (finalStep s).planes = mix s.planes (roundKey s.k) := rfl
@[simp] theorem finalStep_k (s : State) : (finalStep s).k = s.k := rfl
@[simp] theorem finalStep_rc (s : State) : (finalStep s).rc = s.rc := rfl
@[simp] theorem finalStep_fsm (s : State) : (finalStep s).fsm = .done := rfl
@[simp] theorem finalStep_din (s : State) : (finalStep s).din = s.din := rfl
@[simp] theorem finalStep_dout (s : State) : (finalStep s).dout = fromBitplanes (mix s.planes (roundKey s.k)) := rfl
@[simp] theorem finalStep_keyin (s : State) : (finalStep s).keyin = s.keyin := rfl
@[simp] theorem finalStep_irqen (s : State) : (finalStep s).irqen = s.irqen := rfl
@[simp] theorem finalStep_done (s : State) : (finalStep s).done = true := rfl
@[simp] theorem finalStep_err (s : State) : (finalStep s).err = s.err := rfl
@[simp] theorem finalStep_ecause (s : State) : (finalStep s).ecause = s.ecause := rfl
@[simp] theorem finalStep_hostOps (s : State) : (finalStep s).hostOps = s.hostOps := rfl
@[simp] theorem finalStep_order (s : State) : (finalStep s).order = s.order := rfl
@[simp] theorem finalStep_reply (s : State) : (finalStep s).reply = s.reply := rfl
@[simp] theorem finalStep_draws (s : State) : (finalStep s).draws = s.draws := rfl

@[simp] theorem resetEvent_planes (s : State) : (resetEvent s).planes = Arr.tab 64 (Config.drawPlane s.draws) := rfl
@[simp] theorem resetEvent_k (s : State) : (resetEvent s).k = Config.drawKey s.draws := rfl
@[simp] theorem resetEvent_rc (s : State) : (resetEvent s).rc = 0 := rfl
@[simp] theorem resetEvent_fsm (s : State) : (resetEvent s).fsm = .idle := rfl
@[simp] theorem resetEvent_din (s : State) : (resetEvent s).din = Arr.tab 256 (Config.drawDin s.draws) := rfl
@[simp] theorem resetEvent_dout (s : State) : (resetEvent s).dout = Arr.tab 256 (Config.drawDout s.draws) := rfl
@[simp] theorem resetEvent_keyin (s : State) : (resetEvent s).keyin = Config.drawKeyin s.draws := rfl
@[simp] theorem resetEvent_irqen (s : State) : (resetEvent s).irqen = false := rfl
@[simp] theorem resetEvent_done (s : State) : (resetEvent s).done = false := rfl
@[simp] theorem resetEvent_err (s : State) : (resetEvent s).err = false := rfl
@[simp] theorem resetEvent_ecause (s : State) : (resetEvent s).ecause = 0 := rfl
@[simp] theorem resetEvent_hostOps (s : State) : (resetEvent s).hostOps = s.hostOps := rfl
@[simp] theorem resetEvent_order (s : State) : (resetEvent s).order = s.order := rfl
@[simp] theorem resetEvent_reply (s : State) : (resetEvent s).reply = s.reply := rfl
@[simp] theorem resetEvent_draws (s : State) : (resetEvent s).draws = s.draws + 1 := rfl

/-- Raising an error is recording it, whether or not one is recorded already. -/
theorem raiseError_eq (c : Cause) (s : State) : raiseError c s = recorded c s := by
  unfold raiseError recorded
  split
  · next h => cases s; simp_all
  · simp

theorem State.beginTurn_hostOps_cons (s : State) (rest : List HostOp) :
    { s.beginTurn with hostOps := rest } = s.atHostOp rest := rfl

theorem State.busy_iff (s : State) : s.busy = true ↔ s.fsm = .round ∨ s.fsm = .final := by
  unfold State.busy
  cases s.fsm <;> simp

theorem State.not_busy_iff (s : State) : s.busy = false ↔ s.fsm = .idle ∨ s.fsm = .done := by
  unfold State.busy
  cases s.fsm <;> simp

theorem State.busy_congr {s t : State} (h : s.fsm = t.fsm) : s.busy = t.busy := by
  unfold State.busy
  rw [h]

@[simp] theorem recorded_busy (c : Cause) (s : State) : (recorded c s).busy = s.busy := rfl

@[simp] theorem State.beginTurn_busy (s : State) : s.beginTurn.busy = s.busy := rfl

@[simp] theorem State.atHostOp_busy (s : State) (rest : List HostOp) : (s.atHostOp rest).busy = s.busy := rfl

end Sys2Proof.Machine
end

