-- ==== Sys2Proof/Laws/Step.lean ====
section
/-! SUPPORT. What a command, a transaction and a step can do, said once: the forward equations, and one inversion for each. -/

namespace Sys2Proof.Machine

/-- What a command does when it is accepted: the effect of its rule. -/
def effect : Instr → State → State
  | .nop, s => s
  | .start, s => { s with k := s.keyin, planes := toBitplanes s.din, rc := 1, done := false, fsm := .round }
  | .load, s => { s with planes := toBitplanes s.din }
  | .unload, s => { s with dout := fromBitplanes s.planes }
  | .ldkey, s => { s with k := s.keyin }
  | .mix, s => { s with planes := mix s.planes (roundKey s.k) }
  | .sub, s => { s with planes := substitute s.planes }
  | .perm, s => { s with planes := permute s.planes }
  | .kadv r, s => { s with k := advance s.k r }

/-- A command that is not turned away has its effect. -/
theorem exec_of_not_busy (i : Instr) {s : State} (h : s.busy = false) : exec i s = .next (effect i s) := by
  cases i <;>
    simp [exec, effect, execNop, execStart, execLoad, execUnload, execLdkey, execMix, execSub, execPerm, execKadv, whenNotBusy, h]

/-- A command other than NOP is turned away while BUSY (R87). -/
theorem exec_of_busy {i : Instr} (hi : i ≠ .nop) {s : State} (h : s.busy = true) : exec i s = .next (recorded .cmdBusy s) := by
  cases i <;>
    simp_all [exec, execStart, execLoad, execUnload, execLdkey, execMix, execSub, execPerm, execKadv, whenNotBusy, raiseError_eq]

theorem exec_nop (s : State) : exec .nop s = .next s := rfl

/-- Everything a command can do. -/
theorem exec_next {i : Instr} {s t : State} (h : exec i s = .next t) :
    (t = s ∧ i = .nop) ∨ (t = recorded .cmdBusy s ∧ i ≠ .nop ∧ s.busy = true) ∨ (t = effect i s ∧ s.busy = false) := by
  by_cases hi : i = .nop
  · subst hi
    exact .inl ⟨by simpa [exec_nop] using h.symm, rfl⟩
  · cases hb : s.busy with
    | true => exact .inr (.inl ⟨by simpa [exec_of_busy hi hb] using h.symm, hi, rfl⟩)
    | false => exact .inr (.inr ⟨by simpa [exec_of_not_busy i hb] using h.symm, rfl⟩)

theorem runCommand_of_command {w : Word} {i : Instr} (h : decode w = .command i) (s : State) : runCommand w s = exec i s := by
  simp [runCommand, h]

theorem runCommand_of_rejected {w : Word} {why : Reject} (h : decode w = .rejected why) (s : State) :
    runCommand w s = .next (recorded (rejectCause why) s) := by
  simp [runCommand, h, raiseError_eq]

/-- Everything a read can do. -/
theorem busRead_next {off : Offset} {s t : State} (h : busRead off s = .next t) :
    off.toNat % 4 = 0 ∧
      ((∃ r, regAt off = some r ∧ t = { s with reply := some (readReg r s) }) ∨
        (regAt off = none ∧ t = { recorded .busUnmapped s with reply := some 0 })) := by
  unfold busRead at h
  split at h
  · cases h
  · next ha =>
    refine ⟨by omega, ?_⟩
    split at h
    · next r hr => exact .inl ⟨r, hr, by simpa using h.symm⟩
    · next hr => exact .inr ⟨hr, by simpa [raiseError_eq] using h.symm⟩

theorem busRead_mapped {off : Offset} {r : Reg} (ha : off.toNat % 4 = 0) (hr : regAt off = some r) (s : State) :
    busRead off s = .next { s with reply := some (readReg r s) } := by
  simp [busRead, ha, hr]

theorem busRead_unmapped {off : Offset} (ha : off.toNat % 4 = 0) (hr : regAt off = none) (s : State) :
    busRead off s = .next { recorded .busUnmapped s with reply := some 0 } := by
  simp [busRead, ha, hr, raiseError_eq]

theorem busWrite_mapped {off : Offset} {r : Reg} (ha : off.toNat % 4 = 0) (hr : regAt off = some r) (v : Word) (s : State) :
    busWrite off v s = writeReg r v s := by
  simp [busWrite, ha, hr]

theorem busWrite_unmapped {off : Offset} (ha : off.toNat % 4 = 0) (hr : regAt off = none) (v : Word) (s : State) :
    busWrite off v s = .next (recorded .busUnmapped s) := by
  simp [busWrite, ha, hr, raiseError_eq]

theorem busWrite_cmd (v : Word) (s : State) : busWrite cmdOffset v s = runCommand v s :=
  busWrite_mapped (off := cmdOffset) (r := .cmd) (by decide) (by decide) v s

/-- What a write at an offset can store: a word of DIN or KEYIN, IRQEN, or the flags that STATUS clears. -/
inductive Stores (off : Offset) (v : Word) (s : State) : State → Prop
  | din (n : Nat) : regAt off = some (.dinw n) → Stores off v s { s with din := setBufWord s.din n v }
  | key0 : regAt off = some .key0 → Stores off v s { s with keyin := setKeyWord0 s.keyin v }
  | key1 : regAt off = some .key1 → Stores off v s { s with keyin := setKeyWord1 s.keyin v }
  | key2 : regAt off = some .key2 → Stores off v s { s with keyin := setKeyWord2 s.keyin v }
  | ctrl : regAt off = some .ctrl → Stores off v s (s.writeCtrl v)
  | status : regAt off = some .status → Stores off v s (s.writeStatus v)

/-- Everything a write can do: store, record an error, or run a command. -/
theorem busWrite_next {off : Offset} {v : Word} {s t : State} (h : busWrite off v s = .next t) :
    off.toNat % 4 = 0 ∧
      (Stores off v s t ∨ (t = recorded .busUnmapped s ∧ regAt off = none) ∨ (∃ r, t = recorded .busWriteRo s ∧ regAt off = some r ∧ r ≠ .cmd) ∨
        (regAt off = some .cmd ∧ runCommand v s = .next t)) := by
  unfold busWrite at h
  split at h
  · cases h
  · next ha =>
    refine ⟨by omega, ?_⟩
    split at h
    · next r hr =>
      cases r with
      | cmd => exact .inr (.inr (.inr ⟨hr, h⟩))
      | dinw n => cases h; exact .inl (.din n hr)
      | key0 => cases h; exact .inl (.key0 hr)
      | key1 => cases h; exact .inl (.key1 hr)
      | key2 => cases h; exact .inl (.key2 hr)
      | ctrl => cases h; exact .inl (.ctrl hr)
      | status => cases h; exact .inl (.status hr)
      | doutw n => exact .inr (.inr (.inl ⟨_, by simpa [writeReg, raiseError_eq] using h.symm, hr, by simp⟩))
      | plane n => exact .inr (.inr (.inl ⟨_, by simpa [writeReg, raiseError_eq] using h.symm, hr, by simp⟩))
      | kreg0 => exact .inr (.inr (.inl ⟨_, by simpa [writeReg, raiseError_eq] using h.symm, hr, by simp⟩))
      | kreg1 => exact .inr (.inr (.inl ⟨_, by simpa [writeReg, raiseError_eq] using h.symm, hr, by simp⟩))
      | kreg2 => exact .inr (.inr (.inl ⟨_, by simpa [writeReg, raiseError_eq] using h.symm, hr, by simp⟩))
    · next hr => exact .inr (.inl ⟨by simpa [raiseError_eq] using h.symm, hr⟩)

/-- Where each register lies (R53). -/
theorem regAt_some {off : Offset} {r : Reg} (h : regAt off = some r) :
    match r with
    | .dinw n => off.toNat < 0x100 ∧ n = off.toNat / 4
    | .doutw n => 0x100 ≤ off.toNat ∧ off.toNat < 0x200 ∧ n = (off.toNat - 0x100) / 4
    | .plane n => 0x200 ≤ off.toNat ∧ off.toNat < 0x300 ∧ n = (off.toNat - 0x200) / 4
    | .key0 => off = 0x300
    | .key1 => off = 0x304
    | .key2 => off = 0x308
    | .kreg0 => off = 0x310
    | .kreg1 => off = 0x314
    | .kreg2 => off = 0x318
    | .ctrl => off = 0x320
    | .status => off = 0x324
    | .cmd => off = 0x328 := by
  unfold regAt at h
  by_cases h0 : off.toNat < 0x100
  · rw [if_pos h0] at h; cases h; exact ⟨h0, rfl⟩
  rw [if_neg h0] at h
  by_cases h1 : off.toNat < 0x200
  · rw [if_pos h1] at h; cases h; exact ⟨by omega, h1, rfl⟩
  rw [if_neg h1] at h
  by_cases h2 : off.toNat < 0x300
  · rw [if_pos h2] at h; cases h; exact ⟨by omega, h2, rfl⟩
  rw [if_neg h2] at h
  by_cases g0 : off = 0x300
  · rw [if_pos g0] at h; cases h; exact g0
  rw [if_neg g0] at h
  by_cases g1 : off = 0x304
  · rw [if_pos g1] at h; cases h; exact g1
  rw [if_neg g1] at h
  by_cases g2 : off = 0x308
  · rw [if_pos g2] at h; cases h; exact g2
  rw [if_neg g2] at h
  by_cases g3 : off = 0x310
  · rw [if_pos g3] at h; cases h; exact g3
  rw [if_neg g3] at h
  by_cases g4 : off = 0x314
  · rw [if_pos g4] at h; cases h; exact g4
  rw [if_neg g4] at h
  by_cases g5 : off = 0x318
  · rw [if_pos g5] at h; cases h; exact g5
  rw [if_neg g5] at h
  by_cases g6 : off = 0x320
  · rw [if_pos g6] at h; cases h; exact g6
  rw [if_neg g6] at h
  by_cases g7 : off = 0x324
  · rw [if_pos g7] at h; cases h; exact g7
  rw [if_neg g7] at h
  by_cases g8 : off = 0x328
  · rw [if_pos g8] at h; cases h; exact g8
  rw [if_neg g8] at h
  cases h

/-- CMD is at offset 0x328 and nowhere else (R53). -/
theorem regAt_cmd {off : Offset} (h : regAt off = some .cmd) : off = cmdOffset := regAt_some h

theorem regAt_dinw {w : Nat} (h : w < 64) : regAt (BitVec.ofNat 12 (4 * w)) = some (.dinw w) := by
  have e : (BitVec.ofNat 12 (4 * w)).toNat = 4 * w := by simp; omega
  unfold regAt
  rw [e, if_pos (by omega)]
  simp

theorem regAt_doutw {w : Nat} (h : w < 64) : regAt (BitVec.ofNat 12 (0x100 + 4 * w)) = some (.doutw w) := by
  have e : (BitVec.ofNat 12 (0x100 + 4 * w)).toNat = 0x100 + 4 * w := by simp; omega
  unfold regAt
  rw [e, if_neg (by omega), if_pos (by omega)]
  simp

theorem regAt_plane {j : Nat} (h : j < 64) : regAt (BitVec.ofNat 12 (0x200 + 4 * j)) = some (.plane j) := by
  have e : (BitVec.ofNat 12 (0x200 + 4 * j)).toNat = 0x200 + 4 * j := by simp; omega
  unfold regAt
  rw [e, if_neg (by omega), if_neg (by omega), if_pos (by omega)]
  simp

theorem regAt_none_of_high {off : Offset} (h : 0x32C ≤ off.toNat) : regAt off = none := by
  cases hr : regAt off with
  | none => rfl
  | some r =>
    have := regAt_some hr
    cases r <;> simp only at this <;> first | omega | (subst this; exact absurd h (by decide))

theorem step_engine {s : State} (h : s.nextTurn = .engine) : step s = .next (coreStep s.beginTurn) := by
  simp [step, runTurn, h]

theorem step_reset {s : State} (h : s.nextTurn = .reset) : step s = .next (resetEvent s.beginTurn) := by
  simp [step, runTurn, h]

theorem step_host {s : State} {op : HostOp} {rest : List HostOp} (h : s.nextTurn = .host) (ho : s.hostOps = op :: rest) :
    step s = runHostOp op (s.atHostOp rest) := by
  simp [step, runTurn, h, hostTurn, ho]
  rfl

theorem step_quiet {s : State} (h : s.nextTurn = .host) (ho : s.hostOps = []) : step s = .next s.beginTurn := by
  simp [step, runTurn, h, hostTurn, ho]

theorem step_command {s : State} {w : Word} {i : Instr} {rest : List HostOp} (h : s.nextTurn = .host)
    (ho : s.hostOps = .wr cmdOffset w :: rest) (hw : decode w = .command i) : step s = exec i (s.atHostOp rest) := by
  rw [step_host h ho, runHostOp, busWrite_cmd, runCommand_of_command hw]

/-- Everything one step can do. -/
inductive Happens (s : State) : State → Prop
  /-- A core step, or nothing where the engine has none. -/
  | engine : s.nextTurn = .engine → Happens s (coreStep s.beginTurn)
  /-- A reset event. -/
  | reset : s.nextTurn = .reset → Happens s (resetEvent s.beginTurn)
  /-- The host has nothing to do. -/
  | quiet : s.nextTurn = .host → Happens s s.beginTurn
  /-- A read that finds its register. -/
  | answered (rest : List HostOp) (x : Word) : s.nextTurn = .host → Happens s { s.atHostOp rest with reply := some x }
  /-- A read at an unmapped offset. -/
  | unmapped (rest : List HostOp) : s.nextTurn = .host → Happens s { recorded .busUnmapped (s.atHostOp rest) with reply := some 0 }
  /-- A write that stores. -/
  | stored (off : Offset) (v : Word) (rest : List HostOp) (t : State) :
    s.nextTurn = .host → s.hostOps = .wr off v :: rest → Stores off v (s.atHostOp rest) t → Happens s t
  /-- A write that records an error, the CMD write of a rejected word among them. -/
  | rejected (c : Cause) (rest : List HostOp) : s.nextTurn = .host → Happens s (recorded c (s.atHostOp rest))
  /-- The CMD write of a legal command. -/
  | command (w : Word) (i : Instr) (rest : List HostOp) (t : State) :
    s.nextTurn = .host → s.hostOps = .wr cmdOffset w :: rest → decode w = .command i → exec i (s.atHostOp rest) = .next t → Happens s t

theorem step_next {s t : State} (h : step s = .next t) : Happens s t := by
  cases hn : s.nextTurn with
  | engine =>
    rw [step_engine hn] at h
    cases h
    exact .engine hn
  | reset =>
    rw [step_reset hn] at h
    cases h
    exact .reset hn
  | host =>
    cases ho : s.hostOps with
    | nil =>
      rw [step_quiet hn ho] at h
      cases h
      exact .quiet hn
    | cons op rest =>
      rw [step_host hn ho] at h
      cases op with
      | rd off =>
        obtain ⟨-, ⟨r, -, rfl⟩ | ⟨-, rfl⟩⟩ := busRead_next h
        · exact .answered rest _ hn
        · exact .unmapped rest hn
      | wr off v =>
        obtain ⟨-, hs | ⟨rfl, -⟩ | ⟨r, rfl, -, -⟩ | ⟨hr, hc⟩⟩ := busWrite_next h
        · exact .stored off v rest t hn ho hs
        · exact .rejected _ rest hn
        · exact .rejected _ rest hn
        · cases hd : decode v with
          | command i =>
            rw [runCommand_of_command hd] at hc
            exact .command v i rest t hn (regAt_cmd hr ▸ ho) hd hc
          | rejected why =>
            rw [runCommand_of_rejected hd] at hc
            cases hc
            exact .rejected _ rest hn
      | poll off mask val =>
        simp only [runHostOp] at h
        split at h
        · next u hu =>
          obtain ⟨-, ⟨r, -, rfl⟩ | ⟨-, rfl⟩⟩ := busRead_next hu <;> split at h <;> cases h
          · exact .answered rest _ hn
          · exact .answered (.poll off mask val :: rest) _ hn
          · exact .unmapped rest hn
          · exact .unmapped (.poll off mask val :: rest) hn
        · cases h
        · cases h

end Sys2Proof.Machine
end

