-- ==== Sys2Proof/Laws/Bus.lean ====
section
/-! SUPPORT. The register window: words of buffers and keys, the bits of STATUS, and which offset each transaction reaches. -/

namespace Sys2Proof.Machine

theorem bv_ext {n : Nat} {x y : BitVec n} (h : ∀ i, i < n → x.getLsbD i = y.getLsbD i) : x = y := BitVec.eq_of_getLsbD_eq h

/-- A buffer word as the sum of its bytes at their places (R54, R55). -/
theorem bufWord_eq_or (D : Buffer) (n : Nat) :
    bufWord D n = (D.get (4 * n)).setWidth 32 ||| (D.get (4 * n + 1)).setWidth 32 <<< 8 |||
      (D.get (4 * n + 2)).setWidth 32 <<< 16 ||| (D.get (4 * n + 3)).setWidth 32 <<< 24 := by
  apply bv_ext
  intro b hb
  rw [getLsbD_bufWord _ _ hb]
  simp only [BitVec.getLsbD_or, BitVec.getLsbD_shiftLeft, BitVec.getLsbD_setWidth]
  rcases (by omega : b / 8 = 0 ∨ b / 8 = 1 ∨ b / 8 = 2 ∨ b / 8 = 3) with h | h | h | h <;> rw [h]
  · rw [show b % 8 = b by omega]
    simp [show b < 8 by omega, show b < 16 by omega, show b < 24 by omega, hb]
  · rw [show b % 8 = b - 8 by omega, BitVec.getLsbD_of_ge (D.get (4 * n)) b (by omega)]
    simp [show ¬ b < 8 by omega, show b < 16 by omega, show b < 24 by omega, hb, show b - 8 < 32 by omega]
  · rw [show b % 8 = b - 16 by omega, BitVec.getLsbD_of_ge (D.get (4 * n)) b (by omega),
      BitVec.getLsbD_of_ge (D.get (4 * n + 1)) (b - 8) (by omega)]
    simp [show ¬ b < 8 by omega, show ¬ b < 16 by omega, show b < 24 by omega, hb, show b - 16 < 32 by omega]
  · rw [show b % 8 = b - 24 by omega, BitVec.getLsbD_of_ge (D.get (4 * n)) b (by omega),
      BitVec.getLsbD_of_ge (D.get (4 * n + 1)) (b - 8) (by omega), BitVec.getLsbD_of_ge (D.get (4 * n + 2)) (b - 16) (by omega)]
    simp [show ¬ b < 8 by omega, show ¬ b < 16 by omega, show ¬ b < 24 by omega, hb, show b - 24 < 32 by omega]

/-- A lane of a buffer as its two words (R54, R55). -/
theorem bufLane_eq_or (D : Buffer) (i : Nat) :
    bufLane D i = (bufWord D (2 * i)).setWidth 64 ||| (bufWord D (2 * i + 1)).setWidth 64 <<< 32 := by
  unfold bufLane
  generalize bufWord D (2 * i) = x
  generalize bufWord D (2 * i + 1) = y
  apply bv_ext
  intro b hb
  rw [BitVec.getLsbD_append]
  simp only [BitVec.getLsbD_or, BitVec.getLsbD_shiftLeft, BitVec.getLsbD_setWidth]
  by_cases h : b < 32
  · simp [h, hb]
  · rw [BitVec.getLsbD_of_ge x b (by omega)]
    simp [h, hb, show b - 32 < 64 by omega]

/-- Byte `b` of a buffer after word `n` is written (R54). -/
theorem get_setBufWord (D : Buffer) (n : Nat) (v : Word) {b : Nat} (hb : b < 256) :
    (setBufWord D n v).get b = if b / 4 = n then v.extractLsb' (8 * (b % 4)) 8 else D.get b := by
  rw [setBufWord, Arr.get_tab _ hb]

/-- Word `m` of a buffer after word `n` is written. -/
theorem bufWord_setBufWord (D : Buffer) {n m : Nat} (v : Word) (hm : m < 64) :
    bufWord (setBufWord D n v) m = if m = n then v else bufWord D m := by
  apply bv_ext
  intro b hb
  rw [getLsbD_bufWord _ _ hb, get_setBufWord _ _ _ (by omega), show (4 * m + b / 8) / 4 = m by omega,
    show (4 * m + b / 8) % 4 = b / 8 by omega]
  split
  · simp only [BitVec.getLsbD_extractLsb', show b % 8 < 8 by omega, decide_true, Bool.true_and]
    rw [show 8 * (b / 8) + b % 8 = b by omega]
  · rw [getLsbD_bufWord _ _ hb]

/-! ### Key words -/

theorem getLsbD_setKeyWord0 (K : Key) (v : Word) {i : Nat} (hi : i < 80) :
    (setKeyWord0 K v).getLsbD i = if i < 32 then v.getLsbD i else K.getLsbD i := by
  unfold setKeyWord0
  rw [BitVec.getLsbD_append]
  split
  · rfl
  · simp [show i - 32 < 48 by omega, show 32 + (i - 32) = i by omega]

theorem getLsbD_setKeyWord1 (K : Key) (v : Word) {i : Nat} (hi : i < 80) :
    (setKeyWord1 K v).getLsbD i = if i < 32 then K.getLsbD i else if i < 64 then v.getLsbD (i - 32) else K.getLsbD i := by
  unfold setKeyWord1
  rw [BitVec.getLsbD_append]
  split
  · next h => simp [h]
  · rw [BitVec.getLsbD_append]
    by_cases h : i < 64
    · rw [if_pos (by omega), if_pos h]
    · rw [if_neg (by omega), if_neg h]
      simp [show i - 32 - 32 < 16 by omega, show 64 + (i - 32 - 32) = i by omega]

theorem getLsbD_setKeyWord2 (K : Key) (v : Word) {i : Nat} (hi : i < 80) :
    (setKeyWord2 K v).getLsbD i = if i < 64 then K.getLsbD i else v.getLsbD (i - 64) := by
  unfold setKeyWord2
  rw [BitVec.getLsbD_append]
  split
  · next h => simp [h]
  · simp [show i - 64 < 16 by omega]

theorem getLsbD_keyWord2 (K : Key) {i : Nat} (hi : i < 32) :
    (keyWord2 K).getLsbD i = (decide (i < 16) && K.getLsbD (64 + i)) := by
  simp [keyWord2, hi]

/-- Keys with equal words are equal (R57, R58). -/
theorem key_ext_words {x y : Key} (h0 : keyWord0 x = keyWord0 y) (h1 : keyWord1 x = keyWord1 y) (h2 : keyWord2 x = keyWord2 y) :
    x = y := by
  apply bv_ext
  intro i hi
  by_cases c : i < 32
  · have := congrArg (·.getLsbD i) h0
    simpa [keyWord0, c] using this
  · by_cases d : i < 64
    · have := congrArg (·.getLsbD (i - 32)) h1
      simp only [keyWord1, BitVec.getLsbD_extractLsb', show i - 32 < 32 by omega, decide_true, Bool.true_and,
        show 32 + (i - 32) = i by omega] at this
      exact this
    · have := congrArg (·.getLsbD (i - 64)) h2
      simp only [getLsbD_keyWord2 _ (show i - 64 < 32 by omega), show i - 64 < 16 by omega, decide_true, Bool.true_and,
        show 64 + (i - 64) = i by omega] at this
      exact this

/-! ### STATUS and CTRL, bit by bit -/

theorem getLsbD_flagWord (b : Bool) (i : Nat) : (flagWord b).getLsbD i = (decide (i = 0) && b) := by
  unfold flagWord
  cases b
  · simp
  · rw [BitVec.getLsbD_setWidth]
    by_cases h : i = 0
    · subst h
      rfl
    · simp [h]

theorem getLsbD_flagWord_shift (b : Bool) (k : Nat) {i : Nat} (hi : i < 32) :
    (flagWord b <<< k).getLsbD i = (decide (i = k) && b) := by
  rw [BitVec.getLsbD_shiftLeft, getLsbD_flagWord]
  rcases Nat.lt_trichotomy i k with h | h | h
  · have e : ¬ i = k := by omega
    simp [h, e]
  · subst h
    simp [hi]
  · have e : ¬ i = k := by omega
    have f : ¬ i - k = 0 := by omega
    simp [e, f]

theorem getLsbD_field_shift {n : Nat} (x : BitVec n) (k : Nat) {i : Nat} (hi : i < 32) :
    (x.setWidth 32 <<< k).getLsbD i = (decide (k ≤ i) && x.getLsbD (i - k)) := by
  rw [BitVec.getLsbD_shiftLeft, BitVec.getLsbD_setWidth]
  by_cases h : i < k
  · have e : ¬ k ≤ i := by omega
    simp [h, e]
  · have e : k ≤ i := by omega
    have f : i - k < 32 := by omega
    simp [hi, h, e, f]

/-- Every bit of STATUS (R36). -/
theorem getLsbD_statusWord (s : State) {i : Nat} (hi : i < 32) :
    s.statusWord.getLsbD i =
      ((decide (16 ≤ i) && s.rc.getLsbD (i - 16)) || (decide (8 ≤ i) && s.fsm.code.getLsbD (i - 8)) ||
        (decide (4 ≤ i) && s.ecause.getLsbD (i - 4)) || (decide (i = 3) && s.irq) || (decide (i = 2) && s.err) ||
        (decide (i = 1) && s.done) || (decide (i = 0) && s.busy)) := by
  unfold State.statusWord
  simp only [BitVec.getLsbD_or]
  rw [getLsbD_field_shift _ _ hi, getLsbD_field_shift _ _ hi, getLsbD_field_shift _ _ hi, getLsbD_flagWord_shift _ _ hi,
    getLsbD_flagWord_shift _ _ hi, getLsbD_flagWord_shift _ _ hi, getLsbD_flagWord]

theorem ctrlWord_eq (s : State) : s.ctrlWord = if s.irqen then 0x00000001 else 0x00000000 := by
  unfold State.ctrlWord
  cases s.irqen <;> decide

/-- The codes of R221 are 1 to 5. -/
theorem Cause.code_range (c : Cause) : c.code ≠ 0 ∧ 1 ≤ c.code.toNat ∧ c.code.toNat ≤ 5 := by cases c <;> decide

/-! ### Transactions by offset -/

theorem aligned_ofNat {n : Nat} (_h : n < 4096) (h4 : n % 4 = 0) : (BitVec.ofNat 12 n).toNat % 4 = 0 := by
  simp
  omega

theorem busRead_din (s : State) {w : Nat} (h : w < 64) :
    busRead (BitVec.ofNat 12 (4 * w)) s = .next { s with reply := some (bufWord s.din w) } :=
  busRead_mapped (aligned_ofNat (by omega) (by omega)) (regAt_dinw h) s

theorem busRead_dout (s : State) {w : Nat} (h : w < 64) :
    busRead (BitVec.ofNat 12 (0x100 + 4 * w)) s = .next { s with reply := some (bufWord s.dout w) } :=
  busRead_mapped (aligned_ofNat (by omega) (by omega)) (regAt_doutw h) s

theorem busRead_status (s : State) : busRead 0x324 s = .next { s with reply := some s.statusWord } :=
  busRead_mapped (off := 0x324) (r := .status) (by decide) (by decide) s

theorem busRead_ctrl (s : State) : busRead 0x320 s = .next { s with reply := some s.ctrlWord } :=
  busRead_mapped (off := 0x320) (r := .ctrl) (by decide) (by decide) s

theorem busWrite_din (s : State) {w : Nat} (h : w < 64) (v : Word) :
    busWrite (BitVec.ofNat 12 (4 * w)) v s = .next { s with din := setBufWord s.din w v } :=
  busWrite_mapped (aligned_ofNat (by omega) (by omega)) (regAt_dinw h) v s

theorem busWrite_status (v : Word) (s : State) : busWrite 0x324 v s = .next (s.writeStatus v) :=
  busWrite_mapped (off := 0x324) (r := .status) (by decide) (by decide) v s

theorem busWrite_ctrl (v : Word) (s : State) : busWrite 0x320 v s = .next (s.writeCtrl v) :=
  busWrite_mapped (off := 0x320) (r := .ctrl) (by decide) (by decide) v s

/-- What a register reads as does not depend on the bus's last answer. -/
theorem readReg_reply (r : Reg) (s : State) (x : Option Word) : readReg r { s with reply := x } = readReg r s := by
  cases r <;> rfl

/-- The aligned offsets that are unmapped (R53). -/
theorem regAt_none_iff {off : Offset} (ha : off.toNat % 4 = 0) :
    regAt off = none ↔ off = 0x30C ∨ off = 0x31C ∨ 0x32C ≤ off.toNat := by
  constructor
  · intro h
    by_contra hc
    push Not at hc
    obtain ⟨h1, h2, h3⟩ := hc
    have n1 : off.toNat ≠ 0x30C := fun e => h1 (BitVec.eq_of_toNat_eq e)
    have n2 : off.toNat ≠ 0x31C := fun e => h2 (BitVec.eq_of_toNat_eq e)
    by_cases a : off.toNat < 0x100
    · simp [regAt, a] at h
    by_cases b : off.toNat < 0x200
    · simp [regAt, a, b] at h
    by_cases c : off.toNat < 0x300
    · simp [regAt, a, b, c] at h
    have : off.toNat = 0x300 ∨ off.toNat = 0x304 ∨ off.toNat = 0x308 ∨ off.toNat = 0x310 ∨ off.toNat = 0x314 ∨
        off.toNat = 0x318 ∨ off.toNat = 0x320 ∨ off.toNat = 0x324 ∨ off.toNat = 0x328 := by omega
    have ex : ∀ n, n < 4096 → off.toNat = n → off = BitVec.ofNat 12 n := fun n hn e =>
      BitVec.eq_of_toNat_eq (by rw [e]; simp; omega)
    rcases this with e | e | e | e | e | e | e | e | e <;>
      (have e := ex _ (by omega) e; subst e; revert h; decide +kernel)
  · rintro (rfl | rfl | h)
    · decide +kernel
    · decide +kernel
    · exact regAt_none_of_high h

/-- Every aligned transaction completes, whatever the state. -/
theorem busRead_total {off : Offset} (h : off.toNat % 4 = 0) (s : State) : ∃ t, busRead off s = .next t := by
  cases hr : regAt off with
  | none => exact ⟨_, busRead_unmapped h hr s⟩
  | some r => exact ⟨_, busRead_mapped h hr s⟩

theorem exec_total (i : Instr) (s : State) : ∃ t, exec i s = .next t := by
  by_cases hi : i = .nop
  · subst hi
    exact ⟨_, rfl⟩
  · cases hb : s.busy with
    | true => exact ⟨_, exec_of_busy hi hb⟩
    | false => exact ⟨_, exec_of_not_busy i hb⟩

theorem runCommand_total (w : Word) (s : State) : ∃ t, runCommand w s = .next t := by
  cases hd : decode w with
  | command i =>
    rw [runCommand_of_command hd]
    exact exec_total i s
  | rejected why => exact ⟨_, runCommand_of_rejected hd s⟩

theorem busWrite_total {off : Offset} (h : off.toNat % 4 = 0) (v : Word) (s : State) : ∃ t, busWrite off v s = .next t := by
  cases hr : regAt off with
  | none => exact ⟨_, busWrite_unmapped h hr v s⟩
  | some r =>
    rw [busWrite_mapped h hr]
    cases r <;> first | exact ⟨_, rfl⟩ | exact runCommand_total v s

theorem busRead_misaligned {off : Offset} (h : off.toNat % 4 ≠ 0) (s : State) :
    busRead off s = .refused (.spellsNoAccess off) := by
  simp [busRead, h]

theorem busWrite_misaligned {off : Offset} (h : off.toNat % 4 ≠ 0) (v : Word) (s : State) :
    busWrite off v s = .refused (.spellsNoAccess off) := by
  simp [busWrite, h]

/-- What a storing write leaves alone. -/
theorem stores_frame {off : Offset} {v : Word} {s t : State} (h : Stores off v s t) :
    t.planes = s.planes ∧ t.k = s.k ∧ t.rc = s.rc ∧ t.fsm = s.fsm ∧ t.dout = s.dout := by
  cases h <;> exact ⟨rfl, rfl, rfl, rfl, rfl⟩

end Sys2Proof.Machine
end

