-- ==== Sys2Proof/Laws/Decode.lean ====
section
/-! SUPPORT. The fields of a command word as numbers, and what the decoder answers in terms of them. -/

namespace Sys2Proof

theorem opField_toNat (w : Word) : (opField w).toNat = w.toNat % 16 := by
  simp [opField, BitVec.extractLsb'_toNat]

theorem rsvaField_toNat (w : Word) : (rsvaField w).toNat = w.toNat / 16 % 16 := by
  simp [rsvaField, BitVec.extractLsb'_toNat, Nat.shiftRight_eq_div_pow]

theorem roundField_toNat (w : Word) : (roundField w).toNat = w.toNat / 256 % 32 := by
  simp [roundField, BitVec.extractLsb'_toNat, Nat.shiftRight_eq_div_pow]

theorem rsvbField_toNat (w : Word) : (rsvbField w).toNat = w.toNat / 8192 := by
  have := w.isLt
  simp [rsvbField, BitVec.extractLsb'_toNat, Nat.shiftRight_eq_div_pow]
  omega

theorem reservedBitsSet_iff (w : Word) :
    reservedBitsSet w = true ↔
      w.toNat / 8192 ≠ 0 ∨ w.toNat / 16 % 16 ≠ 0 ∨ (w.toNat % 16 ≠ 8 ∧ w.toNat / 256 % 32 ≠ 0) := by
  simp only [reservedBitsSet, Bool.or_eq_true, Bool.and_eq_true, bne_iff_ne, ne_eq, ← BitVec.toNat_inj, opField_toNat,
    rsvaField_toNat, roundField_toNat, rsvbField_toNat]
  simp [or_assoc]

theorem decode_illegalOp {w : Word} (h : 9 ≤ w.toNat % 16) : decode w = .rejected .illegalOp := by
  simp [decode, opField_toNat, h]

theorem decode_reservedBits {w : Word} (h : w.toNat % 16 < 9) (hr : reservedBitsSet w = true) :
    decode w = .rejected .reservedBits := by
  rw [decode, opField_toNat, if_neg (by omega), if_pos hr]

theorem decode_legal {w : Word} (h : w.toNat % 16 < 9) (hr : reservedBitsSet w = false) :
    decode w = .command (instrOf (opField w) (roundField w)) := by
  rw [decode, opField_toNat, if_neg (by omega), if_neg (by simp [hr])]

/-- Everything a word that decodes to a command satisfies. -/
theorem decode_command {w : Word} {i : Instr} (h : decode w = .command i) :
    w.toNat % 16 < 9 ∧ reservedBitsSet w = false ∧ i = instrOf (opField w) (roundField w) := by
  by_cases ho : w.toNat % 16 < 9
  · cases hr : reservedBitsSet w with
    | true => rw [decode_reservedBits ho hr] at h; cases h
    | false => rw [decode_legal ho hr] at h; cases h; exact ⟨ho, rfl, rfl⟩
  · rw [decode_illegalOp (by omega)] at h; cases h

theorem encode_kadv_toNat : ∀ r : Round, (encode (.kadv r)).toNat = 8 + 256 * r.toNat := by decide +kernel

end Sys2Proof
end

