-- ==== Sys2Proof/Laws/Engine.lean ====
section
/-! SUPPORT. Core steps one by one, and sequences: of core steps, of commands, and of machine steps. -/

namespace Sys2Proof.Machine

theorem coreStep_of_not_busy {s : State} (h : s.busy = false) : coreStep s = s := by
  rcases (State.not_busy_iff s).1 h with hf | hf <;> simp [coreStep, hf]

theorem coreStep_round {s : State} (h : s.fsm = .round) : coreStep s = roundStep s := by simp [coreStep, h]

theorem coreStep_final {s : State} (h : s.fsm = .final) : coreStep s = finalStep s := by simp [coreStep, h]

theorem rc_lt_rounds (r : Round) : r < Config.rounds ↔ r.toNat < 31 := by
  rw [BitVec.lt_def]
  rfl

theorem rc_eq_of_not_lt {r : Round} (h : ¬ r < Config.rounds) : r = 31 := by
  rw [rc_lt_rounds] at h
  apply BitVec.eq_of_toNat_eq
  have := r.isLt
  show _ = 31
  omega

theorem coreSteps_succ (n : Nat) (s : State) : coreSteps (n + 1) s = coreStep (coreSteps n s) := by
  induction n generalizing s with
  | zero => rfl
  | succ n ih =>
    rw [coreSteps, ih]
    rfl

theorem execAll_append {a b : List Instr} {s t : State} (h : execAll a s = .next t) : execAll (a ++ b) s = execAll b t := by
  induction a generalizing s with
  | nil => cases h; rfl
  | cons i a ih =>
    simp only [List.cons_append, execAll] at h ⊢
    cases he : exec i s with
    | next u => rw [he] at h; exact ih h
    | fault f => exact nomatch f
    | refused r => rw [he] at h; cases h

theorem run_succ {n : Nat} {s t : State} (h : step s = .next t) : Sys2Proof.core.run (n + 1) s = Sys2Proof.core.run n t := by
  have : Sys2Proof.core.step s = .next t := h
  simp only [Host.Core.run, this]

theorem run_add {n m : Nat} {s t : State} (h : Sys2Proof.core.run n s = .next t) :
    Sys2Proof.core.run (n + m) s = Sys2Proof.core.run m t := by
  induction n generalizing s with
  | zero => cases h; rw [Nat.zero_add]
  | succ n ih =>
    cases hs : step s with
    | next u =>
      rw [run_succ hs] at h
      rw [show n + 1 + m = (n + m) + 1 by omega, run_succ hs]
      exact ih h
    | fault f => exact nomatch f
    | refused r =>
      have hs' : Sys2Proof.core.step s = .refused r := hs
      simp only [Host.Core.run, hs'] at h
      cases h

end Sys2Proof.Machine
end

