-- ==== Sys2Proof/Laws/PerInstr.lean ====
section
/-! SUPPORT. One lemma per command of a statement about commands as syntax: a command's word has no reserved bit set, its OP is one of
the nine, and its R field is the command's round number, 0 for every command but KADV. -/

namespace Sys2Proof.Laws.CommandWord

/-- The round number a command's word carries. -/
def roundOf : Instr → Round
  | .nop => 0
  | .start => 0
  | .load => 0
  | .unload => 0
  | .ldkey => 0
  | .mix => 0
  | .sub => 0
  | .perm => 0
  | .kadv r => r

/-- The fields of a command's word (30_encoding.md R82, R83, R84). -/
def Statement (i : Instr) : Prop :=
  i.wf = true ∧ reservedBitsSet (encode i) = false ∧ (opField (encode i)).toNat < 9 ∧ roundField (encode i) = roundOf i

theorem nop : Statement .nop := by unfold Statement; decide +kernel
theorem start : Statement .start := by unfold Statement; decide +kernel
theorem load : Statement .load := by unfold Statement; decide +kernel
theorem unload : Statement .unload := by unfold Statement; decide +kernel
theorem ldkey : Statement .ldkey := by unfold Statement; decide +kernel
theorem mix : Statement .mix := by unfold Statement; decide +kernel
theorem sub : Statement .sub := by unfold Statement; decide +kernel
theorem perm : Statement .perm := by unfold Statement; decide +kernel
theorem kadv (r : Round) : Statement (.kadv r) := by revert r; unfold Statement; decide +kernel

end Sys2Proof.Laws.CommandWord
end

