-- ==== Sys2Proof/Tests/Slice0.lean ====
section
/-! SUPPORT. Tests on the spec's own vectors (95_test_vectors.md, by row name) and worked examples, and for every statement with
hypotheses a witness that meets them. Expected values are the spec's. -/

open Sys2Proof Sys2Proof.Machine

namespace Sys2Proof.Tests

-- One declaration at a time: a hundred kernel evaluations at once want more threads than the sandbox's limit allows.
set_option Elab.async false

/-- The answer is a next state with the property. -/
def runs (o : Result) (p : State → Bool) : Bool :=
  match o with
  | .next t => p t
  | .fault _ => false
  | .refused _ => false

/-- The answer is the refusal of R64. -/
def refusedAt (o : Result) (off : Offset) : Bool :=
  match o with
  | .refused r => r == .spellsNoAccess off
  | .next _ => false
  | .fault _ => false

/-- Every lane holds `b`. -/
def planesOf (b : Block) : Planes := Arr.tab 64 fun j => bif b.getLsbD j then 0xFFFFFFFF else 0

/-- Every lane holds `b`. -/
def bufferOf (b : Block) : Buffer := Arr.tab 256 fun n => b.extractLsb' (8 * (n % 8)) 8

/-- Lane `i` holds `i` (row L3). -/
def counting : Buffer := Arr.tab 256 fun n => if n % 8 = 0 then BitVec.ofNat 8 (n / 8) else 0

/-- Planes that are zero but for a list. -/
def planesAt (l : List (Nat × Plane)) : Planes := Arr.tab 64 fun j => (l.lookup j).getD 0

/-- The planes of L3: lane `i` holds `i`. -/
def countingPlanes : Planes := planesAt [(0, 0xAAAAAAAA), (1, 0xCCCCCCCC), (2, 0xF0F0F0F0), (3, 0xFF00FF00), (4, 0xFFFF0000)]

def idle : State := State.reset
def inRound (r : Round) : State := { idle with fsm := .round, rc := r }
def inFinal : State := { idle with fsm := .final, rc := 31 }
def inDone : State := { idle with fsm := .done, rc := 31, done := true }

/-- DONE with the error BUS_WRITE_RO recorded. -/
def inError : State := { inDone with err := true, ecause := 5 }

/-- The host's next event is `op`. -/
def before (op : HostOp) (s : State) : State := { s with hostOps := [op], order := [.host] }

/-! ### Well-formedness -/

theorem test_wf_kadv : (Instr.kadv 31).wf = true := by decide +kernel
theorem test_wf_refuses_opcode : legalWord 0x00000009 = false ∧ legalWord 0x0000000F = false := by decide +kernel
theorem test_wf_refuses_rsva : legalWord 0x00000010 = false ∧ legalWord 0x00000188 = false := by decide +kernel
theorem test_wf_refuses_rsvb : legalWord 0x00002008 = false ∧ legalWord 0x80000000 = false := by decide +kernel
theorem test_wf_refuses_round_of_mix : legalWord 0x00000105 = false := by decide +kernel
theorem test_wf_accepts : legalWord 0x00000007 = true ∧ legalWord 0x00001F08 = true := by decide +kernel
theorem test_wf_offset :
    Offset.spellsAccess 0x001 = false ∧ Offset.spellsAccess 0x32A = false ∧ Offset.spellsAccess 0xFFC = true := by decide +kernel

/-! ### Decoding: words written out from R82 and R83 as RSVB ++ R ++ RSVA ++ OP -/

/-- A word laid out as R82's diagram. -/
def word (rsvb : BitVec 19) (r : BitVec 5) (rsva op : BitVec 4) : Word := (rsvb ++ r ++ rsva ++ op : BitVec (19 + 5 + 4 + 4))

theorem test_decode_nop : decode (word 0 0b00000 0b0000 0b0000) = .command .nop := by decide +kernel
theorem test_decode_start : decode (word 0 0b00000 0b0000 0b0001) = .command .start := by decide +kernel
theorem test_decode_load : decode (word 0 0b00000 0b0000 0b0010) = .command .load := by decide +kernel
theorem test_decode_unload : decode (word 0 0b00000 0b0000 0b0011) = .command .unload := by decide +kernel
theorem test_decode_ldkey : decode (word 0 0b00000 0b0000 0b0100) = .command .ldkey := by decide +kernel
theorem test_decode_mix : decode (word 0 0b00000 0b0000 0b0101) = .command .mix := by decide +kernel
theorem test_decode_sub : decode (word 0 0b00000 0b0000 0b0110) = .command .sub := by decide +kernel
theorem test_decode_perm : decode (word 0 0b00000 0b0000 0b0111) = .command .perm := by decide +kernel
theorem test_decode_kadv : decode (word 0 0b10011 0b0000 0b1000) = .command (.kadv 0b10011) := by decide +kernel
theorem test_decode_illegal : decode (word 0x08000 0b00000 0b0000 0b1001) = .rejected .illegalOp := by decide +kernel
theorem test_decode_reserved : decode (word 1 0b00000 0b0000 0b1000) = .rejected .reservedBits := by decide +kernel
theorem test_decodeTableWord :
    decodeTableWord 32 0x00001F08 = some (.kadv 31) ∧ decodeTableWord 32 0x00000105 = none := by decide +kernel

/-! ### Commands -/

/-- X16. -/
theorem test_nop_while_busy : runs (runCommand 0 (inRound 1)) (fun t => t == inRound 1 && t.statusWord == 0x00010101) = true := by
  decide +kernel

/-- START's example (R192). -/
theorem test_start : runs (exec .start idle) (fun t => t.statusWord == 0x00010101) = true := by decide +kernel

/-- X13. -/
theorem test_start_while_busy : runs (exec .start (inRound 1)) (fun t => t.statusWord == 0x00010135) = true := by decide +kernel

/-- L3. -/
theorem test_load :
    runs (exec .load { idle with din := counting }) (fun t =>
      [0, 1, 2, 3, 4, 5, 63].map t.planes.get == [0xAAAAAAAA, 0xCCCCCCCC, 0xF0F0F0F0, 0xFF00FF00, 0xFFFF0000, 0, 0]) = true := by
  decide +kernel

/-- L5, some of its planes. -/
theorem test_load_mixed :
    runs (exec .load { idle with din := bufferOf 0x0123456789ABCDEF }) (fun t =>
      [3, 4, 8, 9, 31, 56, 63].map t.planes.get == [0xFFFFFFFF, 0, 0xFFFFFFFF, 0, 0xFFFFFFFF, 0xFFFFFFFF, 0]) = true := by
  decide +kernel

/-- L7. -/
theorem test_unload :
    runs (exec .unload { idle with planes := planesAt [(0, 0x00000001), (63, 0x80000000)] }) (fun t =>
      bufLane t.dout 0 == 0x0000000000000001 && bufLane t.dout 31 == 0x8000000000000000 && bufLane t.dout 30 == 0) = true := by
  decide +kernel

/-- Section 2.7, LDKEY. -/
theorem test_ldkey :
    runs (exec .ldkey { idle with keyin := 0x0123456789ABCDEF0123 }) (fun t =>
      readReg .kreg0 t == 0xCDEF0123 && readReg .kreg1 t == 0x456789AB && readReg .kreg2 t == 0x00000123) = true := by
  decide +kernel

/-- M5. -/
theorem test_mix :
    runs (exec .mix { idle with k := 0x0123456789ABCDEF0123 }) (fun t => t.planes == planesOf 0x0123456789ABCDEF) = true := by
  decide +kernel

/-- M3. -/
theorem test_mix_low_bits : runs (exec .mix { idle with k := 0x0000000000000000FFFF }) (fun t => t.planes == planesOf 0) = true := by
  decide +kernel

/-- S3. -/
theorem test_sub :
    runs (exec .sub { idle with planes := planesOf 0x0123456789ABCDEF }) (fun t => t.planes == planesOf 0xC56B90AD3EF84712) = true := by
  decide +kernel

/-- Section 2.4, from L3's state. -/
theorem test_sub_mixed :
    runs (exec .sub { idle with planes := countingPlanes }) (fun t =>
      (List.range 8).map t.planes.get ==
        [0x659A659A, 0xA74CA74C, 0x36873687, 0x0ED90ED9, 0xFFFF0000, 0x00000000, 0xFFFFFFFF, 0x0000FFFF]) = true := by
  decide +kernel

/-- P2v. -/
theorem test_perm :
    runs (exec .perm { idle with planes := planesOf 0x0123456789ABCDEF }) (fun t => t.planes == planesOf 0x00FF0F0F33335555) = true := by
  decide +kernel

/-- P5v. -/
theorem test_perm_mixed :
    runs (exec .perm { idle with planes := countingPlanes }) (fun t =>
      t.planes == planesAt [(0, 0xAAAAAAAA), (16, 0xCCCCCCCC), (32, 0xF0F0F0F0), (48, 0xFF00FF00), (1, 0xFFFF0000)]) = true := by
  decide +kernel

/-- KA8. -/
theorem test_kadv :
    runs (exec (.kadv 5) { idle with k := 0x0123456789ABCDEF0123 }) (fun t => t.k == 0x1024602468ACF137F9BD) = true := by
  decide +kernel

/-- KA4, which separates the two rotations of 90_conflicts.md C3. -/
theorem test_kadv_rotation :
    runs (exec (.kadv 0) { idle with k := 0x00000000000000080000 }) (fun t => t.k == 0xC0000000000000000001) = true := by
  decide +kernel

/-! ### The engine (section 2.8's trace of E1) -/

/-- Row 2. -/
theorem test_round_step :
    coreStep { inRound 2 with planes := planesOf 0xFFFFFFFF00000000, k := 0xC0000000000000008000 } =
      { inRound 3 with planes := planesOf 0x80FF00FFFF008000, k := 0x50001800000000010000 } := by
  decide +kernel

/-- Row 31. -/
theorem test_last_round_step :
    coreStep { inRound 31 with planes := planesOf 0x4A38C5E00283FBA1, k := 0x8BA27A0EB8783AC96D59 } =
      { inFinal with planes := planesOf 0x38D2F04C34635345, k := 0x6DAB31744F41D7008759 } := by
  decide +kernel

/-- The final mix. -/
theorem test_final_step :
    coreStep { inFinal with planes := planesOf 0x38D2F04C34635345, k := 0x6DAB31744F41D7008759 } =
      { inDone with
        planes := planesOf 0x5579C1387B228445
        dout := bufferOf 0x5579C1387B228445
        k := 0x6DAB31744F41D7008759 } := by
  decide +kernel

/-- E5. -/
theorem test_encryptBlock : encryptBlock 0x0123456789ABCDEF0123 0x0123456789ABCDEF = 0xF8DD50531D973BDE := by decide +kernel

/-! ### The register window -/

/-- X8. -/
theorem test_read_unmapped : runs (busRead 0x400 idle) (fun t => t.reply == some 0 && t.statusWord == 0x00000044) = true := by
  decide +kernel

/-- X9. -/
theorem test_write_unmapped : runs (busWrite 0x30C 0x12345678 idle) (fun t => t.statusWord == 0x00000044) = true := by decide +kernel

/-- X10, X11. -/
theorem test_write_read_only :
    runs (busWrite 0x200 0x12345678 idle) (fun t => t.statusWord == 0x00000054 && t.planes == idle.planes) = true ∧
    runs (busWrite 0x100 0x5 idle) (fun t => t.statusWord == 0x00000054) = true := by
  decide +kernel

/-- X12. -/
theorem test_read_cmd : runs (busRead 0x328 idle) (fun t => t.reply == some 0 && t.statusWord == 0) = true := by decide +kernel

/-- X2, X4, X5, X7. -/
theorem test_command_checks :
    runs (busWrite 0x328 0x00000009 idle) (fun t => t.statusWord == 0x00000014) = true ∧
    runs (busWrite 0x328 0x00000105 idle) (fun t => t.statusWord == 0x00000024) = true ∧
    runs (busWrite 0x328 0x00000010 idle) (fun t => t.statusWord == 0x00000024) = true ∧
    runs (busWrite 0x328 0x00001F08 idle) (fun t => t.statusWord == 0x00000000) = true := by
  decide +kernel

/-- X14, X15. -/
theorem test_command_check_order :
    runs (busWrite 0x328 0x10000009 (inRound 1)) (fun t => t.statusWord == 0x00010115) = true ∧
    runs (busWrite 0x328 0x00000015 (inRound 1)) (fun t => t.statusWord == 0x00010125) = true := by
  decide +kernel

/-- X17, X18. -/
theorem test_first_error_and_clear :
    runs (busWrite 0x328 0x00000009 { idle with err := true, ecause := 3 }) (fun t => t.err && t.ecause == 3) = true ∧
    runs (busWrite 0x324 0x00000004 { idle with err := true, ecause := 3 }) (fun t => !t.err && t.ecause == 0) = true := by
  decide +kernel

/-- X19's end to X20, and X22. -/
theorem test_acknowledge :
    runs (busWrite 0x324 0x00000002 { inDone with irqen := true }) (fun t => t.statusWord == 0x001F0300 && !t.irq) = true ∧
    ({ inDone with irqen := true } : State).statusWord = 0x001F030A ∧
    runs (busWrite 0x324 0xFFFFFFF9 inDone) (fun t => t.statusWord == 0x001F0302) = true := by
  decide +kernel

/-- Section 2.7: a write of 0xFFFFFFFF to KEY2 stores 0xFFFF. -/
theorem test_key2 :
    runs (busWrite 0x308 0xFFFFFFFF idle) (fun t => t.keyin == 0xFFFF0000000000000000 && readReg .key2 t == 0x0000FFFF) = true := by
  decide +kernel

/-- R54 and R63: a word's lowest byte is its lowest-numbered byte. -/
theorem test_din_word :
    runs (busWrite 0x0FC 0x80000001 idle) (fun t => t.din.get 252 == 0x01 && t.din.get 255 == 0x80 && bufLane t.din 31 ==
      0x8000000100000000) = true := by
  decide +kernel

/-- RS2. -/
theorem test_reset_event : (resetEvent (inRound 12)).statusWord = 0 ∧ (resetEvent (inRound 12)).done = false := by
  simp [State.statusWord, State.irq, State.busy, Fsm.code, flagWord]

/-! ### Steps -/

theorem test_step_fetch_word :
    runs (step (State.reset.withFetchWord 32 0x00000001)) (fun t => t.fsm == .round && t.rc == 1) = true := by decide +kernel

theorem test_step_poll :
    runs (step (before (.poll 0x324 0x302 0x302) (inRound 1))) (fun t =>
      t.hostOps == [.poll 0x324 0x302 0x302] && t.reply == some 0x00010101) = true ∧
    runs (step (before (.poll 0x324 0x302 0x302) inDone)) (fun t => t.hostOps == [] && t.reply == some 0x001F0302) = true := by
  decide +kernel

theorem test_step_engine_when_nothing_is_fixed : runs (step (inRound 1)) (fun t => t.rc == 2) = true := by decide +kernel

/-- R89's `SETLANE 31`, `ROUND 31` and `WAITDONE`. -/
theorem test_host_program :
    setLane 31 0x8000000000000001 = [.wr 0x0F8 0x00000001, .wr 0x0FC 0x80000000] ∧
    roundOps 31 = [.wr 0x328 0x00000005, .wr 0x328 0x00000006, .wr 0x328 0x00000007, .wr 0x328 0x00001F08] ∧
    encrypt = [.wr 0x328 0x00000001, .poll 0x324 0x00000302 0x00000302] := by
  decide +kernel

/-! ### Witnesses: states and operands that meet the hypotheses of each statement, clause by clause -/

theorem witness_OpcodeMapDecodesEachRow :
    (0x00000000 : Word) &&& 0xFFFFFFFF = 0x00000000 ∧ (0x00000007 : Word) &&& 0xFFFFFFFF = 0x00000007 ∧
    (0x00000008 : Word) &&& 0xFFFFE0FF = 0x00000008 ∧ (0x00001F08 : Word) &&& 0xFFFFE0FF = 0x00000008 ∧
    decode 0x00001F08 = .command (.kadv 31) ∧ 9 ≤ (0xFFFFFFF9 : Word).toNat % 16 ∧ 9 ≤ (0x0000000F : Word).toNat % 16 := by
  decide +kernel

theorem witness_DecodeAndEncodeAgree :
    (Instr.kadv 0).wf = true ∧ (Instr.kadv 31).wf = true ∧ Instr.nop.wf = true ∧ decode 0x00001F08 = .command (.kadv 31) ∧
    decode 0x00000000 = .command .nop := by decide +kernel

theorem witness_LegalWordsAreTheListedForty :
    legalWords.contains 0x00000009 = false ∧ legalWords.contains 0x00002008 = false ∧ legalWords.contains 0xFFFFFFFF = false ∧
    legalWords.contains 0x00001F08 = true := by decide +kernel

/-- The words 0x9, 0x2008, 0x105, 0x0, 0x1F08 and the states IDLE and FINAL fall under R85's five cases, one each. -/
theorem witness_CommandWriteChecksInOrder :
    9 ≤ (0x00000009 : Word).toNat % 16 ∧
    ((0x00002008 : Word).toNat % 16 < 9 ∧ (0x00002008 : Word).toNat / 8192 ≠ 0) ∧
    ((0x00000188 : Word).toNat % 16 < 9 ∧ (0x00000188 : Word).toNat / 16 % 16 ≠ 0) ∧
    ((0x00000105 : Word).toNat % 16 < 9 ∧ (0x00000105 : Word).toNat % 16 ≠ 8 ∧ (0x00000105 : Word).toNat / 256 % 32 ≠ 0) ∧
    (0x00000000 : Word).toNat % 16 = 0 ∧
    ((0x00001F08 : Word).toNat % 16 < 9 ∧ (0x00001F08 : Word).toNat % 16 ≠ 0 ∧ (0x00001F08 : Word).toNat / 8192 = 0 ∧
      (0x00001F08 : Word).toNat / 16 % 16 = 0 ∧ inFinal.busy = true ∧ idle.busy = false) := by decide +kernel

theorem witness_BusyTurnsAwayEveryCommandButNop :
    Instr.kadv 31 ≠ .nop ∧ Instr.start ≠ .nop ∧ (inRound 1).fsm = .round ∧ inFinal.fsm = .final ∧ idle.fsm = .idle ∧
    inDone.fsm = .done := by decide +kernel

theorem witness_StepRunsTheDecodedCommand :
    (before (.wr 0x328 0x00001F08) idle).nextTurn = .host ∧
    (before (.wr 0x328 0x00001F08) idle).hostOps = [.wr 0x328 0x00001F08] ∧ decode 0x00001F08 = .command (.kadv 31) := by
  decide +kernel

theorem witness_HostTurnPerformsItsTransaction :
    (before (.rd 0xFFC) idle).nextTurn = .host ∧ (before (.wr 0x000 1) idle).nextTurn = .host ∧ idle.nextTurn = .host ∧
    idle.hostOps = [] ∧ (before (.poll 0x324 0x302 0x302) inDone).nextTurn = .host ∧
    (∃ t x, busRead 0x324 (inDone.atHostOp []) = .next t ∧ t.reply = some x ∧ x &&& 0x302 = 0x302) ∧
    (∃ t x, busRead 0x324 ((inRound 1).atHostOp []) = .next t ∧ t.reply = some x ∧ x &&& 0x302 ≠ 0x302) := by
  refine ⟨by decide +kernel, by decide +kernel, by decide +kernel, by decide +kernel, by decide +kernel, ?_, ?_⟩
  · exact ⟨_, _, busRead_status _, rfl, by decide +kernel⟩
  · exact ⟨_, _, busRead_status _, rfl, by decide +kernel⟩

theorem witness_PlacedWordIsTheNextEvent :
    decodeTableWord 32 0x00000000 = some .nop ∧ decodeTableWord 32 0x00001F08 = some (.kadv 31) := by decide +kernel

theorem witness_EngineTurnIsACoreStepExactlyWhileBusy :
    (inRound 31).nextTurn = .engine ∧ (inRound 31).busy = true ∧ inFinal.nextTurn = .engine ∧ inFinal.busy = true ∧
    ({ idle with order := [.engine] } : State).nextTurn = .engine ∧ idle.busy = false ∧ idle.order = [] := by decide +kernel

theorem witness_StepStopsOnlyAtMisalignedOffsets :
    refusedAt (step (before (.rd 0xFFF) idle)) 0xFFF = true ∧ refusedAt (step (before (.wr 0x001 0) idle)) 0x001 = true ∧
    refusedAt (step (before (.poll 0x325 0 0) idle)) 0x325 = true ∧ (before (.rd 0xFFF) idle).nextTurn = .host ∧
    (before (.wr 0x001 0) idle).nextTurn = .host ∧ (before (.poll 0x325 0 0) idle).nextTurn = .host ∧
    (0x001 : Offset).toNat % 4 ≠ 0 ∧ (0x325 : Offset).toNat % 4 ≠ 0 ∧ (0xFFF : Offset).toNat % 4 ≠ 0 := by
  decide +kernel

theorem witness_NopChangesNothing :
    (0x00000010 : Word).toNat % 16 = 0 ∧ (0x00000010 : Word) ≠ 0 ∧ (0x80000000 : Word).toNat % 16 = 0 ∧ decode 0 = .command .nop := by
  decide +kernel

theorem witness_StartBeginsAnEncryption :
    idle.busy = false ∧ idle.err = false ∧ idle.ecause = 0 ∧ inDone.busy = false ∧ (inRound 31).busy = true ∧ inFinal.busy = true ∧
    (0x0FC : Offset).toNat < 0x100 ∧
    runs (exec .start inDone) (fun t => runs (busWrite 0x0FC 1 t) (fun _ => true) && runs (busWrite 0x308 1 t) (fun _ => true)) =
      true := by
  decide +kernel

theorem bufLane_counting : ∀ i, i < 32 → bufLane counting i = BitVec.ofNat 64 i := by decide +kernel

theorem witness_LoadTransposesInputIntoPlanes :
    idle.busy = false ∧ (inRound 1).busy = true ∧ (∀ b, b < 256 → idle.din.get b = 0x00) ∧
    (∀ b, b < 256 → (Arr.tab 256 fun _ => (0xFF : Byte)).get b = 0xFF) ∧ (∀ i, i < 32 → bufLane counting i = BitVec.ofNat 64 i) :=
  ⟨rfl, rfl, fun _ h => Arr.get_tab _ h, fun _ h => Arr.get_tab _ h, bufLane_counting⟩

theorem witness_UnloadTransposesPlanesIntoOutput :
    idle.busy = false ∧ inFinal.busy = true ∧
    (planesAt [(0, 0x00000001), (63, 0x80000000)]).get 0 = 0x00000001 ∧
    (planesAt [(0, 0x00000001), (63, 0x80000000)]).get 63 = 0x80000000 ∧
    (∀ j, j < 63 → 0 < j → (planesAt [(0, 0x00000001), (63, 0x80000000)]).get j = 0) ∧
    runs (exec .load { idle with din := counting }) (fun _ => true) = true ∧ inFinal.fsm = .final := by
  decide +kernel

theorem witness_LdkeyCopiesTheKeyInput :
    ({ idle with keyin := 0x0123456789ABCDEF0123 } : State).busy = false ∧ (inRound 1).busy = true ∧ inFinal.fsm = .final := by
  decide +kernel

theorem witness_KadvAdvancesTheKeyOnce :
    (0x00002008 : Word).toNat % 16 = 8 ∧ (0x00002008 : Word).toNat / 8192 ≠ 0 ∧ (0x00000018 : Word).toNat % 16 = 8 ∧
    (0x00000018 : Word).toNat / 16 % 16 ≠ 0 ∧ inFinal.busy = true ∧ idle.busy = false ∧ idle.k = 0 ∧
    (rotateKey idle.k).extractLsb' 15 5 = 0 := by decide +kernel

theorem witness_MixXorsTheRoundKeyIntoEveryPlane :
    ({ idle with k := 0x0000000000000000FFFF } : State).busy = false ∧ ({ idle with k := 0xFFFFFFFFFFFFFFFFFFFF } : State).busy = false ∧
    (inRound 1).busy = true ∧ (∀ j, j < 64 → idle.planes.get j = 0) ∧
    (0x0123456789ABCDEF0123 : Key).toNat / 2 ^ 16 = (0x0123456789ABCDEF4567 : Key).toNat / 2 ^ 16 := by
  decide +kernel

theorem witness_SubSubstitutesEveryNibble :
    idle.busy = false ∧ inFinal.busy = true ∧ (∀ j, j < 64 → idle.planes.get j = 0) ∧
    (∀ i, i < 32 → lane (toBitplanes counting) i = BitVec.ofNat 64 i) :=
  ⟨rfl, rfl, fun _ h => Arr.get_tab _ h, fun i h => (lane_toBitplanes counting h).trans (bufLane_counting i h)⟩

theorem witness_PermMovesEachPlane : idle.busy = false ∧ inFinal.busy = true := by decide +kernel

theorem witness_PermHasOrderThreeAndFourFixedPlanes :
    idle.busy = false ∧ (∀ j, j < 64 → (planesOf 0).get j = 0x00000000) ∧
    (∀ j, j < 64 → (planesOf 0xFFFFFFFFFFFFFFFF).get j = 0xFFFFFFFF) ∧ lane (planesOf 0x0000000000000002) 31 = 0x0000000000000002 := by
  decide +kernel

theorem witness_CommandsChangeOnlyTheirDestinations :
    Instr.load ≠ .start ∧ Instr.mix ≠ .unload ∧ Instr.sub ≠ .ldkey ∧ (∀ r, Instr.sub ≠ .kadv r) ∧ idle.busy = false := by
  decide +kernel

/-- Every value of a nibble comes from some bits in lane 31. -/
theorem witness_CircuitAgreesWithTheTable :
    15 = ((0x80000000 : Plane).getLsbD 31).toNat + 2 * ((0x80000000 : Plane).getLsbD 31).toNat +
      4 * ((0x80000000 : Plane).getLsbD 31).toNat + 8 * ((0x80000000 : Plane).getLsbD 31).toNat ∧
    0 = ((0x7FFFFFFF : Plane).getLsbD 31).toNat + 2 * ((0 : Plane).getLsbD 31).toNat + 4 * ((0 : Plane).getLsbD 31).toNat +
      8 * ((0 : Plane).getLsbD 31).toNat := by decide +kernel

/-- Bits 0, 14, 20 and 75 are under the first clause, 15 and 19 under the second, 76 to 79 under the third. -/
theorem witness_AdvanceKeyBitByBit :
    (0 < 15 ∨ (20 ≤ 0 ∧ 0 < 76)) ∧ (14 < 15 ∨ (20 ≤ 14 ∧ 14 < 76)) ∧ (20 < 15 ∨ (20 ≤ 20 ∧ 20 < 76)) ∧
    (75 < 15 ∨ (20 ≤ 75 ∧ 75 < 76)) ∧ (15 + 0 = 15 ∧ 0 < 5) ∧ (15 + 4 = 19 ∧ 4 < 5) := by decide

theorem witness_AdvanceKeyByteByByte : (0 = 0 ∨ (3 ≤ 0 ∧ 0 < 9)) ∧ (3 = 0 ∨ (3 ≤ 3 ∧ 3 < 9)) ∧ (8 = 0 ∨ (3 ≤ 8 ∧ 8 < 9)) := by decide

theorem witness_LayersActOnEachLaneAlone : 0 < 32 ∧ 31 < 32 ∧ 15 < 16 ∧ 63 < 64 := by decide

/-- Two states that agree on fsm, RC, the keys and lane 31 of S, DIN and DOUT, and on no other lane of S. -/
def laneOne : State := { inRound 7 with planes := planesAt [(0, 0x80000000)], din := bufferOf 31, dout := counting }
def laneTwo : State := { inRound 7 with planes := planesAt [(0, 0xFFFFFFFF)], din := counting, dout := bufferOf 31 }

theorem witness_LanesNeverInteract :
    31 < 32 ∧ laneOne.fsm = laneTwo.fsm ∧ laneOne.rc = laneTwo.rc ∧ laneOne.k = laneTwo.k ∧ laneOne.keyin = laneTwo.keyin ∧
    lane laneOne.planes 31 = lane laneTwo.planes 31 ∧ bufLane laneOne.din 31 = bufLane laneTwo.din 31 ∧
    bufLane laneOne.dout 31 = bufLane laneTwo.dout 31 ∧ (∀ n, n < 31 → lane laneOne.planes n ≠ lane laneTwo.planes n) := by
  decide +kernel

theorem witness_RoundStepPerformsOneRound :
    (inRound 1).fsm = .round ∧ (inRound 30).rc.toNat < 31 ∧ (inRound 31).rc.toNat = 31 ∧ inDone.busy = false ∧
    runs (exec .start inDone) (fun _ => true) = true := by decide +kernel

theorem witness_OnlyStartEngineAndResetWriteFsm :
    runs (step (before (.wr 0x328 0x00000001) inDone)) (fun t => t.fsm != .done) = true ∧
    runs (step (inRound 31)) (fun t => t.fsm != .round) = true ∧ runs (step inFinal) (fun t => t.fsm != .final) = true ∧
    runs (step { inFinal with order := [.reset] }) (fun t => t.fsm != .final) = true := by
  refine ⟨by decide +kernel, by decide +kernel, by decide +kernel, rfl⟩

theorem witness_OnlyStartRoundStepAndResetWriteTheRoundCounter :
    runs (step (before (.wr 0x328 0x00000001) inDone)) (fun t => t.rc != 31) = true ∧
    runs (step (inRound 30)) (fun t => t.rc != 30) = true ∧
    runs (step { inFinal with order := [.reset] }) (fun t => t.rc != 31) = true := by
  refine ⟨by decide +kernel, by decide +kernel, rfl⟩

theorem witness_OnlyListedEventsWriteDone :
    (inFinal.done = false ∧ runs (step inFinal) (fun t => t.done) = true) ∧
    (inDone.done = true ∧ runs (step (before (.wr 0x328 0x00000001) inDone)) (fun t => !t.done) = true ∧
      runs (step (before (.wr 0x324 0x00000002) inDone)) (fun t => !t.done) = true ∧
      runs (step { inDone with order := [.reset] }) (fun t => !t.done) = true) := by
  refine ⟨by decide +kernel, by decide +kernel, by decide +kernel, by decide +kernel, rfl⟩

theorem witness_OnlyListedEventsWriteTheDatapath :
    runs (step (before (.wr 0x328 0x00000006) idle)) (fun t => t.planes != idle.planes) = true ∧
    runs (step (inRound 31)) (fun t => t.planes != (inRound 31).planes && t.k != (inRound 31).k) = true ∧
    runs (step (before (.wr 0x328 0x00000008) idle)) (fun t => t.k != idle.k) = true ∧
    runs (step (before (.wr 0x328 0x00000003) { idle with planes := planesOf 1 })) (fun t => t.dout != idle.dout) = true ∧
    runs (step { inFinal with k := 0x00000000000000010000 }) (fun t => t.dout != inFinal.dout) = true ∧
    runs (step (before (.wr 0x0FC 1) idle)) (fun t => t.din != idle.din) = true ∧
    runs (step (before (.wr 0x300 1) idle)) (fun t => t.keyin != idle.keyin) = true ∧
    runs (step (before (.wr 0x308 1) idle)) (fun t => t.keyin != idle.keyin) = true := by
  decide +kernel

theorem witness_EveryStepKeepsTheControlStateLegal :
    (inRound 1).Inv ∧ (inRound 31).Inv ∧ inFinal.Inv ∧ inDone.Inv ∧ inError.Inv ∧
    runs (step (inRound 31)) (fun _ => true) = true := by
  refine ⟨?_, ?_, ?_, ?_, ?_, by decide +kernel⟩ <;> (unfold State.Inv; decide +kernel)

/-- START's next event is the host's, and nothing after it is fixed. -/
def startNext : State := { idle with hostOps := [.wr 0x328 0x00000001, .rd 0x100], order := [.host] }

theorem witness_EncryptionFinishesAfterThirtyTwoCoreSteps :
    startNext.busy = false ∧ startNext.nextTurn = .host ∧ startNext.order.tail = [] ∧
    startNext.hostOps = .wr 0x328 0x00000001 :: [.rd 0x100] := by decide +kernel

/-- Right after START: no round is done. -/
def started : State := { inRound 1 with planes := toBitplanes counting, din := counting, k := 5, keyin := 5 }

theorem started_encrypting : Encrypting 5 counting started := by
  refine .inl ⟨rfl, by decide, ?_, fun i hi => ?_⟩
  · rfl
  · exact lane_toBitplanes _ hi

/-- Before the FINAL step of E1: row 31 of section 2.8's trace in every lane. -/
def lastMixNext : State := { inFinal with planes := planesOf 0x38D2F04C34635345, k := 0x6DAB31744F41D7008759, din := bufferOf 0 }

theorem keyAfter_zero : keyAfter 0 31 = 0x6DAB31744F41D7008759 := by decide +kernel

theorem blockAfter_zero : blockAfter 0 0 31 = 0x38D2F04C34635345 := by decide +kernel

theorem bufLane_zero : ∀ i, i < 32 → bufLane (bufferOf 0) i = 0 := by decide +kernel

theorem lastMixNext_encrypting : Encrypting 0 (bufferOf 0) lastMixNext := by
  refine .inr ⟨rfl, rfl, keyAfter_zero.symm, fun i hi => ?_⟩
  rw [bufLane_zero i hi, blockAfter_zero]
  have : ∀ i, i < 32 → lane lastMixNext.planes i = 0x38D2F04C34635345 := by decide +kernel
  exact this i hi

/-- Before the last ROUND step of E1: row 30 of section 2.8's trace in every lane. -/
def lastRoundNext : State := { inRound 31 with planes := planesOf 0x4A38C5E00283FBA1, k := 0x8BA27A0EB8783AC96D59, din := bufferOf 0 }

theorem afterThirtyRounds : keyAfter 0 30 = 0x8BA27A0EB8783AC96D59 ∧ blockAfter 0 0 30 = 0x4A38C5E00283FBA1 := by decide +kernel

theorem lastRoundNext_encrypting : Encrypting 0 (bufferOf 0) lastRoundNext := by
  refine .inl ⟨rfl, by decide, ?_⟩
  show AfterRounds 0 (bufferOf 0) 30 lastRoundNext
  refine ⟨afterThirtyRounds.1.symm, fun i hi => ?_⟩
  rw [bufLane_zero i hi, afterThirtyRounds.2]
  have : ∀ i, i < 32 → lane lastRoundNext.planes i = 0x4A38C5E00283FBA1 := by decide +kernel
  exact this i hi

theorem witness_FinalStepWritesTheOutput : lastMixNext.fsm = .final ∧ Encrypting 0 (bufferOf 0) lastMixNext :=
  ⟨rfl, lastMixNext_encrypting⟩

theorem witness_RunningEncryptionIsUndisturbed :
    idle.busy = false ∧ Encrypting 5 counting started ∧ started.nextTurn = .engine ∧ started.fsm = .round ∧
    Encrypting 5 counting (before (.wr 0x000 0xFFFFFFFF) started) ∧ (before (.wr 0x000 0xFFFFFFFF) started).nextTurn = .host ∧
    started.rc.toNat < 31 ∧ Encrypting 0 (bufferOf 0) lastRoundNext ∧ lastRoundNext.nextTurn = .engine ∧
    lastRoundNext.fsm = .round ∧ lastRoundNext.rc.toNat = 31 ∧
    Encrypting 0 (bufferOf 0) lastMixNext ∧ lastMixNext.nextTurn = .engine ∧ lastMixNext.fsm = .final :=
  ⟨rfl, started_encrypting, rfl, rfl, started_encrypting, rfl, by decide +kernel, lastRoundNext_encrypting, rfl, rfl, rfl,
    lastMixNext_encrypting, rfl, rfl⟩

/-- E1's end. -/
def finished : State :=
  { inDone with
    planes := planesOf 0x5579C1387B228445
    dout := bufferOf 0x5579C1387B228445
    k := 0x6DAB31744F41D7008759
    din := bufferOf 0 }

theorem encryptBlock_of_zero : blockAfter 0 0 31 ^^^ roundKey (keyAfter 0 31) = 0x5579C1387B228445 := by
  rw [blockAfter_zero, keyAfter_zero]
  decide +kernel

theorem finished_encrypted : Encrypted 0 (bufferOf 0) finished := by
  refine ⟨rfl, rfl, keyAfter_zero.symm, fun i hi => ?_⟩
  rw [encryptBlock, bufLane_zero i hi, encryptBlock_of_zero]
  have : ∀ i, i < 32 → lane finished.planes i = 0x5579C1387B228445 ∧ bufLane finished.dout i = 0x5579C1387B228445 := by decide +kernel
  exact this i hi

/-- After DONE: a NOP, which is the only command the statement lets come next, and a DIN write, which is no command. -/
theorem witness_FinishedResultStaysUntilTheNextCommand :
    Encrypted 0 (bufferOf 0) (before (.wr 0x328 0x00000000) finished) ∧
    runs (step (before (.wr 0x328 0x00000000) finished)) (fun _ => true) = true ∧
    (before (.wr 0x328 0x00000000) finished).nextTurn ≠ .reset ∧
    (∀ w i rest, (before (.wr 0x328 0x00000000) finished).hostOps = .wr 0x328 w :: rest → decode w = .command i → i = .nop) ∧
    Encrypted 0 (bufferOf 0) (before (.wr 0x000 1) finished) ∧
    runs (step (before (.wr 0x000 1) finished)) (fun _ => true) = true ∧
    (∀ w rest, (before (.wr 0x000 1) finished).hostOps ≠ .wr 0x328 w :: rest) := by
  refine ⟨finished_encrypted, by decide +kernel, by decide +kernel, ?_, finished_encrypted, by decide +kernel, ?_⟩
  · intro w i rest h hd
    have h0 : w = 0x00000000 := by
      have := List.cons.inj h
      exact (HostOp.wr.inj this.1).2.symm
    have hn : decode 0x00000000 = .command .nop := by decide +kernel
    rw [h0, hn] at hd
    cases hd
    rfl
  · intro w rest h
    have : (0x000 : Offset) = 0x328 := by
      have := List.cons.inj h
      exact (HostOp.wr.inj this.1).1
    exact absurd this (by decide)

theorem witness_ZeroKeyZeroBlockGivesTheKnownAnswer : Encrypted 0 finished.din finished ∧ bufLane finished.din 31 = 0 :=
  ⟨finished_encrypted, bufLane_zero 31 (by decide)⟩

theorem witness_LayerCommandsEqualOneEncryption : idle.busy = false ∧ inDone.busy = false := by decide +kernel

theorem witness_DinWordsAreLittleEndian :
    63 < 64 ∧ 31 < 32 ∧ ∃ x y, busRead (BitVec.ofNat 12 (8 * 31)) idle = .next { idle with reply := some x } ∧
      busRead (BitVec.ofNat 12 (8 * 31 + 4)) idle = .next { idle with reply := some y } :=
  ⟨by decide, by decide, _, _, busRead_din idle (w := 62) (by decide), busRead_din idle (w := 63) (by decide)⟩

theorem witness_DoutWordsAreReadOnly :
    63 < 64 ∧ 31 < 32 ∧ ∃ x y, busRead (BitVec.ofNat 12 (0x100 + 8 * 31)) idle = .next { idle with reply := some x } ∧
      busRead (BitVec.ofNat 12 (0x104 + 8 * 31)) idle = .next { idle with reply := some y } :=
  ⟨by decide, by decide, _, _, busRead_dout idle (w := 62) (by decide), busRead_dout idle (w := 63) (by decide)⟩

theorem witness_PlanesAreReadOnly : 0 < 64 ∧ 63 < 64 ∧ 31 < 32 := by decide

theorem witness_KeyInputIsThreeWords :
    9 < 10 ∧ ∃ x, busRead (BitVec.ofNat 12 (0x300 + 4 * (9 / 4))) idle = .next { idle with reply := some x } :=
  ⟨by decide, _, busRead_mapped (off := 0x308) (r := .key2) (by decide) (by decide) idle⟩

theorem witness_ReservedBitsReadZeroAndIgnoreWrites :
    (∃ x, busRead 0x320 idle = .next { idle with reply := some x }) ∧ (∃ x, busRead 0x324 idle = .next { idle with reply := some x }) ∧
    (∃ x, busRead 0x308 idle = .next { idle with reply := some x }) ∧ (∃ x, busRead 0x318 idle = .next { idle with reply := some x }) ∧
    idle.err = false :=
  ⟨⟨_, busRead_ctrl idle⟩, ⟨_, busRead_status idle⟩, ⟨_, busRead_mapped (off := 0x308) (r := .key2) (by decide) (by decide) idle⟩,
    ⟨_, busRead_mapped (off := 0x318) (r := .kreg2) (by decide) (by decide) idle⟩, rfl⟩

theorem witness_ReadsHaveNoSideEffect :
    (regAt 0x000).isSome = true ∧ (regAt 0x328).isSome = true ∧ regAt 0x30C = none ∧ regAt 0xFFC = none ∧
    (0xFFC : Offset).toNat % 4 = 0 := by decide +kernel

/-- The offsets at the edges of R53's unmapped ranges. -/
theorem witness_UnmappedAccessesRaiseAnError :
    0x32C ≤ (0x32C : Offset).toNat ∧ 0x32C ≤ (0xFFC : Offset).toNat ∧ (0x30C : Offset).toNat % 4 = 0 ∧ (0x31C : Offset).toNat % 4 = 0 ∧
    ¬ ((0x328 : Offset) = 0x30C ∨ (0x328 : Offset) = 0x31C ∨ 0x32C ≤ (0x328 : Offset).toNat) ∧
    ¬ ((0x308 : Offset) = 0x30C ∨ (0x308 : Offset) = 0x31C ∨ 0x32C ≤ (0x308 : Offset).toNat) := by decide +kernel

theorem witness_StatusFieldsAreWhereTheTableSays : runs (busWrite 0x324 0xFFFFFFFF inDone) (fun _ => true) = true := by decide +kernel

theorem witness_StatusWriteClearsByOnes :
    (0x00000004 : Word).getLsbD 2 = true ∧ (0xFFFFFFFB : Word).getLsbD 2 = false := by decide +kernel

theorem witness_HostAddressReachesItsOffset : Config.coreBase + 0x1000 ≤ Config.coreBase + 0x1000 := Nat.le_refl _

/-- A state and the same with another order of events read the same everywhere. -/
theorem witness_NothingIsHiddenFromTheHost :
    ∀ (off : Offset) (x : Word), off.toNat % 4 = 0 → regAt off ≠ none → busRead off inDone = .next { inDone with reply := some x } →
      busRead off { inDone with order := [.host] } = .next { ({ inDone with order := [.host] } : State) with reply := some x } := by
  intro off x ha hm h
  obtain ⟨r, hr⟩ := Option.ne_none_iff_exists'.1 hm
  rw [busRead_mapped ha hr] at h ⊢
  have : readReg r inDone = x := by simpa using h
  rw [← this]
  cases r <;> rfl

theorem witness_FirstErrorWins :
    ({ idle with err := true, ecause := 3 } : State).err = true ∧ idle.err = false ∧ decode 0x0000000F = .rejected .illegalOp ∧
    decode 0x80000000 = .rejected .reservedBits ∧ inFinal.busy = true ∧ regAt 0xFFC = none ∧ (0xFFC : Offset).toNat % 4 = 0 ∧
    0x100 ≤ (0x100 : Offset).toNat ∧ (0x2FC : Offset).toNat < 0x300 ∧ (0x2FC : Offset).toNat % 4 = 0 := by decide +kernel

theorem witness_ErrorsDisturbNothing :
    idle.err = false ∧ runs (step (before (.rd 0x400) idle)) (fun t => t.err) = true ∧
    runs (step (before (.wr 0x328 0x00000002) (inRound 1))) (fun t => t.err) = true := by decide +kernel

theorem witness_IrqIsLevelAndClearedAsListed :
    (0x00000002 : Word).getLsbD 1 = true ∧ (0xFFFFFFFE : Word).getLsbD 0 = false ∧ inDone.busy = false ∧
    runs (busWrite 0x324 0x00000002 { inDone with irqen := true }) (fun _ => true) = true ∧
    runs (exec .start { inDone with irqen := true }) (fun _ => true) = true ∧
    runs (busWrite 0x320 0xFFFFFFFE { inDone with irqen := true }) (fun _ => true) = true := by decide +kernel

theorem witness_ResetEventResetsTheControlState : ({ inRound 12 with order := [.reset] } : State).nextTurn = .reset := by decide +kernel

theorem witness_ResetEventDrawsTheDatapath : ({ inFinal with order := [.reset] } : State).nextTurn = .reset := by decide +kernel

end Sys2Proof.Tests
end

section
/-! PROOF of R4 (00_scope.md): lanes never interact. Two states that agree on one lane and on what all lanes share agree on it
again after every update of the state that a command or a core step is made of. -/

namespace Sys2Proof.Machine

/-- What an observer of lane `n` sees is the same in both states: the lane's blocks in S, DIN and DOUT, and what all lanes share. -/
structure AgreeOnLane (n : Nat) (s t : State) : Prop where
  fsm : s.fsm = t.fsm
  rc : s.rc = t.rc
  k : s.k = t.k
  keyin : s.keyin = t.keyin
  planes : lane s.planes n = lane t.planes n
  din : bufLane s.din n = bufLane t.din n
  dout : bufLane s.dout n = bufLane t.dout n

namespace AgreeOnLane

variable {n : Nat} {s t : State}

theorem after_recorded (c : Cause) (h : AgreeOnLane n s t) : AgreeOnLane n (recorded c s) (recorded c t) :=
  { h with }

/-- A lane after the mix, in MIX and in the FINAL step, comes from the lane and the key alone. -/
theorem lane_mix_eq (hn : n < 32) (h : AgreeOnLane n s t) :
    lane (mix s.planes (roundKey s.k)) n = lane (mix t.planes (roundKey t.k)) n := by
  rw [lane_mix _ _ hn, lane_mix _ _ hn, h.planes, h.k]

theorem lane_toBitplanes_eq (hn : n < 32) (h : AgreeOnLane n s t) :
    lane (toBitplanes s.din) n = lane (toBitplanes t.din) n := by
  rw [lane_toBitplanes _ hn, lane_toBitplanes _ hn, h.din]

/-- An accepted command keeps the agreement: each command writes the lane from the lane (through the layer's lemma in lane terms)
and the key from the key. -/
theorem after_effect (hn : n < 32) (h : AgreeOnLane n s t) (i : Instr) : AgreeOnLane n (effect i s) (effect i t) := by
  cases i with
  | nop => exact h
  | start => exact { h with fsm := rfl, rc := rfl, k := h.keyin, planes := h.lane_toBitplanes_eq hn }
  | load => exact { h with planes := h.lane_toBitplanes_eq hn }
  | unload =>
    have hd : bufLane (fromBitplanes s.planes) n = bufLane (fromBitplanes t.planes) n := by
      rw [bufLane_fromBitplanes _ hn, bufLane_fromBitplanes _ hn, h.planes]
    exact { h with dout := hd }
  | ldkey => exact { h with k := h.keyin }
  | mix => exact { h with planes := h.lane_mix_eq hn }
  | sub =>
    have hp : lane (substitute s.planes) n = lane (substitute t.planes) n := by
      rw [lane_substitute _ hn, lane_substitute _ hn, h.planes]
    exact { h with planes := hp }
  | perm =>
    have hp : lane (permute s.planes) n = lane (permute t.planes) n := by rw [lane_permute, lane_permute, h.planes]
    exact { h with planes := hp }
  | kadv r => exact { h with k := congrArg (advance · r) h.k }

/-- The same command takes agreeing states to agreeing states. Both accept it or both turn it away, because BUSY is a function of fsm. -/
theorem after_exec (hn : n < 32) (h : AgreeOnLane n s t) (i : Instr) :
    ∃ s' t', exec i s = .next s' ∧ exec i t = .next t' ∧ AgreeOnLane n s' t' := by
  have hbusy : t.busy = s.busy := (State.busy_congr h.fsm).symm
  cases hb : s.busy with
  | false => exact ⟨_, _, exec_of_not_busy i hb, exec_of_not_busy i (hbusy.trans hb), h.after_effect hn i⟩
  | true =>
    by_cases hi : i = .nop
    · subst hi
      exact ⟨s, t, exec_nop s, exec_nop t, h⟩
    · exact ⟨_, _, exec_of_busy hi hb, exec_of_busy hi (hbusy.trans hb), h.after_recorded .cmdBusy⟩

theorem after_roundStep (hn : n < 32) (h : AgreeOnLane n s t) : AgreeOnLane n (roundStep s) (roundStep t) where
  fsm := by rw [roundStep_fsm, roundStep_fsm, h.rc]
  rc := by rw [roundStep_rc, roundStep_rc, h.rc]
  k := by rw [roundStep_k, roundStep_k, h.k, h.rc]
  keyin := h.keyin
  planes := by rw [roundStep_planes, roundStep_planes, lane_round _ _ hn, lane_round _ _ hn, h.planes, h.k]
  din := h.din
  dout := h.dout

theorem after_finalStep (hn : n < 32) (h : AgreeOnLane n s t) : AgreeOnLane n (finalStep s) (finalStep t) where
  fsm := rfl
  rc := h.rc
  k := h.k
  keyin := h.keyin
  planes := h.lane_mix_eq hn
  din := h.din
  dout := by rw [finalStep_dout, finalStep_dout, bufLane_fromBitplanes _ hn, bufLane_fromBitplanes _ hn, h.lane_mix_eq hn]

theorem after_coreStep (hn : n < 32) (h : AgreeOnLane n s t) : AgreeOnLane n (coreStep s) (coreStep t) := by
  have hbusy : t.busy = s.busy := (State.busy_congr h.fsm).symm
  cases hb : s.busy with
  | false => rwa [coreStep_of_not_busy hb, coreStep_of_not_busy (hbusy.trans hb)]
  | true =>
    obtain hr | hf := (State.busy_iff s).1 hb
    · rw [coreStep_round hr, coreStep_round (h.fsm.symm.trans hr)]
      exact h.after_roundStep hn
    · rw [coreStep_final hf, coreStep_final (h.fsm.symm.trans hf)]
      exact h.after_finalStep hn

end AgreeOnLane

/-- Settles O28: agreement on a lane is kept by every command and by the core step. -/
theorem lanesNeverInteract : Obligations.LanesNeverInteract := by
  intro s t n hn hfsm hrc hk hkeyin hplanes hdin hdout
  have h : AgreeOnLane n s t := ⟨hfsm, hrc, hk, hkeyin, hplanes, hdin, hdout⟩
  refine ⟨fun i => ?_, ?_⟩
  · obtain ⟨s', t', hs, ht, fsm, rc, k, keyin, planes, din, dout⟩ := h.after_exec hn i
    exact ⟨s', t', hs, ht, fsm, rc, k, keyin, planes, din, dout⟩
  · obtain ⟨fsm, rc, k, keyin, planes, din, dout⟩ := h.after_coreStep hn
    exact ⟨fsm, rc, k, keyin, planes, din, dout⟩

end Sys2Proof.Machine
end

section
/-! PROOF of R28 (10_state.md): only START, the engine's two steps and reset write fsm. First the words that decode to a command, then
what a command and a core step can do to fsm. -/

namespace Sys2Proof

/-- A command's word is its OP with its round number from bit 8 up (R82, R83). -/
theorem encode_instrOf_toNat :
    ∀ (op : Nibble) (r : Round), op.toNat < 9 → (op.toNat ≠ 8 → r.toNat = 0) →
      (encode (instrOf op r)).toNat = op.toNat + 256 * r.toNat := by
  decide +kernel

/-- The decoder accepts no word but the command's own (R86). -/
theorem eq_encode_of_decode {w : Word} {i : Instr} (h : decode w = .command i) : w = encode i := by
  obtain ⟨hop, hrsv, rfl⟩ := decode_command h
  have hclear : w.toNat / 8192 = 0 ∧ w.toNat / 16 % 16 = 0 ∧ (w.toNat % 16 ≠ 8 → w.toNat / 256 % 32 = 0) := by
    have := mt (reservedBitsSet_iff w).2 (by simp [hrsv])
    omega
  apply BitVec.eq_of_toNat_eq
  rw [encode_instrOf_toNat _ _ (by rwa [opField_toNat]) (by rw [opField_toNat, roundField_toNat]; exact hclear.2.2),
    opField_toNat, roundField_toNat]
  omega

end Sys2Proof

namespace Sys2Proof.Machine

/-- START is the one command whose effect writes fsm. -/
theorem effect_fsm {i : Instr} (hi : i ≠ .start) (s : State) : (effect i s).fsm = s.fsm := by
  cases i with
  | start => exact absurd rfl hi
  | _ => rfl

/-- A command that changes fsm is START, accepted while not BUSY. -/
theorem exec_changes_fsm {i : Instr} {s t : State} (h : exec i s = .next t) (hne : t.fsm ≠ s.fsm) :
    i = .start ∧ s.busy = false ∧ t.fsm = .round := by
  obtain ⟨rfl, -⟩ | ⟨rfl, -, -⟩ | ⟨rfl, hb⟩ := exec_next h
  · exact absurd rfl hne
  · exact absurd rfl hne
  · obtain rfl : i = .start := by
      by_contra hi
      exact hne (effect_fsm hi s)
    exact ⟨rfl, hb, rfl⟩

/-- A core step that changes fsm is the last ROUND step or the FINAL step. -/
theorem coreStep_changes_fsm {s : State} (hne : (coreStep s).fsm ≠ s.fsm) :
    (s.fsm = .round ∧ s.rc = 31 ∧ (coreStep s).fsm = .final) ∨ (s.fsm = .final ∧ (coreStep s).fsm = .done) := by
  cases hb : s.busy with
  | false => exact absurd (congrArg State.fsm (coreStep_of_not_busy hb)) hne
  | true =>
    obtain hr | hf := (State.busy_iff s).1 hb
    · have hlast : ¬ s.rc < Config.rounds := fun hlt => hne (by rw [coreStep_round hr, roundStep_fsm, if_pos hlt, hr])
      exact .inl ⟨hr, rc_eq_of_not_lt hlast, by rw [coreStep_round hr, roundStep_fsm, if_neg hlast]⟩
    · exact .inr ⟨hf, by rw [coreStep_final hf, finalStep_fsm]⟩

/-- Settles O31: by cases on what the step can do; a read, a storing write, a recorded error and a quiet host leave fsm alone. -/
theorem onlyStartEngineAndResetWriteFsm : Obligations.OnlyStartEngineAndResetWriteFsm := by
  intro s t h hne
  cases step_next h with
  | engine hn =>
    obtain ⟨hr, hrc, ht⟩ | ⟨hf, ht⟩ := coreStep_changes_fsm hne
    · exact .inr (.inl ⟨hn, hr, hrc, ht⟩)
    · exact .inr (.inr (.inl ⟨hn, hf, ht⟩))
  | reset hn => exact .inr (.inr (.inr ⟨hn, rfl⟩))
  | command w i rest _ hn ho hd he =>
    obtain ⟨rfl, hb, ht⟩ := exec_changes_fsm he hne
    obtain rfl : w = encode .start := eq_encode_of_decode hd
    exact .inl ⟨hn, ⟨rest, ho⟩, (State.not_busy_iff s).1 hb, ht⟩
  | stored off v rest _ hn ho hs =>
    obtain ⟨-, -, -, hfsm, -⟩ := stores_frame hs
    exact absurd hfsm hne
  | quiet | answered | unmapped | rejected => exact absurd rfl hne

end Sys2Proof.Machine
end

section
/-! PROOF of the control registers' rules, R35, R36, R40 and R41 (10_state.md sections 7 and 8): CTRL, STATUS and CMD as the host reads
and writes them. -/

namespace Sys2Proof.Machine

theorem busRead_cmd (s : State) : busRead cmdOffset s = .next { s with reply := some 0 } :=
  busRead_mapped (off := cmdOffset) (r := .cmd) (by decide) (by decide) s

/-- Above the four flags, STATUS holds RC, fsm and ECAUSE (R36). -/
theorem getLsbD_statusWord_of_four_le (s : State) {i : Nat} (h4 : 4 ≤ i) (hi : i < 32) :
    s.statusWord.getLsbD i =
      ((decide (16 ≤ i) && s.rc.getLsbD (i - 16)) || (decide (8 ≤ i) && s.fsm.code.getLsbD (i - 8)) || s.ecause.getLsbD (i - 4)) := by
  rw [getLsbD_statusWord s hi]
  simp [h4, show i ≠ 3 by omega, show i ≠ 2 by omega, show i ≠ 1 by omega, show i ≠ 0 by omega]

/-- Above fsm, STATUS holds RC alone (R36). -/
theorem getLsbD_statusWord_of_ten_le (s : State) {i : Nat} (h10 : 10 ≤ i) (hi : i < 32) :
    s.statusWord.getLsbD i = (decide (16 ≤ i) && s.rc.getLsbD (i - 16)) := by
  rw [getLsbD_statusWord_of_four_le s (by omega) hi, BitVec.getLsbD_of_ge s.fsm.code _ (by omega),
    BitVec.getLsbD_of_ge s.ecause _ (by omega)]
  simp

theorem statusWord_bit_busy (s : State) : s.statusWord.getLsbD 0 = s.busy := by
  rw [getLsbD_statusWord s (by decide)]
  simp

theorem statusWord_bit_done (s : State) : s.statusWord.getLsbD 1 = s.done := by
  rw [getLsbD_statusWord s (by decide)]
  simp

theorem statusWord_bit_err (s : State) : s.statusWord.getLsbD 2 = s.err := by
  rw [getLsbD_statusWord s (by decide)]
  simp

theorem statusWord_bit_irq (s : State) : s.statusWord.getLsbD 3 = s.irq := by
  rw [getLsbD_statusWord s (by decide)]
  simp

theorem statusWord_ecause (s : State) : s.statusWord.extractLsb' 4 4 = s.ecause := by
  apply bv_ext
  intro i hi
  rw [BitVec.getLsbD_extractLsb', getLsbD_statusWord_of_four_le s (by omega) (by omega)]
  simp [hi, show ¬ 16 ≤ 4 + i by omega, show ¬ 8 ≤ 4 + i by omega]

theorem statusWord_fsm (s : State) : s.statusWord.extractLsb' 8 2 = s.fsm.code := by
  apply bv_ext
  intro i hi
  rw [BitVec.getLsbD_extractLsb', getLsbD_statusWord_of_four_le s (by omega) (by omega), BitVec.getLsbD_of_ge s.ecause _ (by omega)]
  simp [hi, show ¬ 16 ≤ 8 + i by omega]

theorem statusWord_rc (s : State) : s.statusWord.extractLsb' 16 5 = s.rc := by
  apply bv_ext
  intro i hi
  rw [BitVec.getLsbD_extractLsb', getLsbD_statusWord_of_ten_le s (by omega) (by omega)]
  simp [hi]

theorem statusWord_reserved_low (s : State) : s.statusWord.extractLsb' 10 6 = 0 := by
  apply bv_ext
  intro i hi
  rw [BitVec.getLsbD_extractLsb', getLsbD_statusWord_of_ten_le s (by omega) (by omega)]
  simp [show ¬ 16 ≤ 10 + i by omega]

theorem statusWord_reserved_high (s : State) : s.statusWord.extractLsb' 21 11 = 0 := by
  apply bv_ext
  intro i hi
  rw [BitVec.getLsbD_extractLsb', getLsbD_statusWord_of_ten_le s (by omega) (by omega), BitVec.getLsbD_of_ge s.rc _ (by omega)]
  simp

theorem busy_eq_fsm (s : State) : s.busy = (s.fsm == .round || s.fsm == .final) := by
  unfold State.busy
  cases s.fsm <;> rfl

theorem statusWord_resetEvent (s : State) : (resetEvent s).statusWord = 0 := by
  simp [State.statusWord, State.irq, State.busy, Fsm.code, flagWord]

/-- Settles O50: a CTRL write stores bit 0 and nothing else, and a read answers the flag it stored. -/
theorem ctrlHoldsTheInterruptEnable : Obligations.CtrlHoldsTheInterruptEnable := by
  intro s v
  exact ⟨busWrite_ctrl v s, by rw [busRead_ctrl, ctrlWord_eq]⟩

/-- Settles O51: each field of STATUS by its own lemma. -/
theorem statusFieldsAreWhereTheTableSays : Obligations.StatusFieldsAreWhereTheTableSays := by
  intro s
  refine ⟨s.statusWord, busRead_status s, ?busy, statusWord_bit_done s, statusWord_bit_err s, statusWord_bit_irq s,
    statusWord_ecause s, ?fsm, statusWord_reserved_low s, statusWord_rc s, statusWord_reserved_high s, ?write, statusWord_resetEvent s⟩
  case busy => rw [statusWord_bit_busy, busy_eq_fsm]
  case fsm =>
    rw [statusWord_fsm]
    cases s.fsm <;> rfl
  case write =>
    intro v t h
    rw [busWrite_status] at h
    cases h
    exact ⟨rfl, rfl, rfl, rfl, rfl⟩

/-- Settles O52: DONE by bit 1, ERR with ECAUSE by bit 2, by cases on the two bits. -/
theorem statusWriteClearsByOnes : Obligations.StatusWriteClearsByOnes := by
  intro s v
  refine ⟨s.writeStatus v, busWrite_status v s, rfl, ?done, ?cleared, ?kept⟩
  case done =>
    rw [State.writeStatus_done]
    cases v.getLsbD 1 <;> simp
  case cleared =>
    intro h2
    rw [State.writeStatus_err, State.writeStatus_ecause, h2]
    simp
  case kept =>
    intro h2
    rw [State.writeStatus_err, State.writeStatus_ecause, h2]
    simp

/-- Settles O53: CMD is the one register whose write runs the word, and it reads as 0. -/
theorem cmdExecutesWritesAndReadsZero : Obligations.CmdExecutesWritesAndReadsZero :=
  fun s w => ⟨busWrite_cmd w s, busRead_cmd s⟩

end Sys2Proof.Machine
end

section
/-! PROOF of the register window's rules R54 to R61 (20_memory.md section 2): the two buffers, the planes, KEYIN and K as the host reads
and writes them, their reserved bits, and what any read leaves unchanged. -/

namespace Sys2Proof.Machine

/-! ### Reads and read-only registers -/

/-- A read has one answer. -/
theorem busRead_answer_unique {off : Offset} {s : State} {x y : Word} (hx : busRead off s = .next { s with reply := some x })
    (hy : busRead off s = .next { s with reply := some y }) : x = y := by
  rw [hx] at hy
  injection hy with h
  exact Option.some.inj (congrArg State.reply h)

/-- A second read of a mapped offset answers what the first did (R60). -/
theorem busRead_again {off : Offset} {r : Reg} (ha : off.toNat % 4 = 0) (hr : regAt off = some r) (s : State) :
    busRead off { s with reply := some (readReg r s) } = .next { s with reply := some (readReg r s) } := by
  rw [busRead_mapped ha hr, readReg_reply r s (some (readReg r s))]

/-- The registers that the host can only read (R55, R56, R58). -/
def Reg.readOnly : Reg → Bool
  | .doutw _ | .plane _ | .kreg0 | .kreg1 | .kreg2 => true
  | _ => false

/-- A write to a read-only register records BUS_WRITE_RO and changes nothing else (R55, R56, R58). -/
theorem busWrite_readOnly {off : Offset} {r : Reg} (hro : r.readOnly = true) (ha : off.toNat % 4 = 0) (hr : regAt off = some r)
    (v : Word) (s : State) : busWrite off v s = .next (recorded .busWriteRo s) := by
  rw [busWrite_mapped ha hr, ← raiseError_eq]
  cases r with
  | doutw | plane | kreg0 | kreg1 | kreg2 => rfl
  | _ => exact absurd hro (by simp [Reg.readOnly])

theorem busRead_plane (s : State) {j : Nat} (h : j < 64) :
    busRead (BitVec.ofNat 12 (0x200 + 4 * j)) s = .next { s with reply := some (s.planes.get j) } :=
  busRead_mapped (aligned_ofNat (by omega) (by omega)) (regAt_plane h) s

theorem busRead_key0 (s : State) : busRead 0x300 s = .next { s with reply := some (keyWord0 s.keyin) } :=
  busRead_mapped (off := 0x300) (r := .key0) (by decide) (by decide) s

theorem busRead_key1 (s : State) : busRead 0x304 s = .next { s with reply := some (keyWord1 s.keyin) } :=
  busRead_mapped (off := 0x304) (r := .key1) (by decide) (by decide) s

theorem busRead_key2 (s : State) : busRead 0x308 s = .next { s with reply := some (keyWord2 s.keyin) } :=
  busRead_mapped (off := 0x308) (r := .key2) (by decide) (by decide) s

theorem busRead_kreg0 (s : State) : busRead 0x310 s = .next { s with reply := some (keyWord0 s.k) } :=
  busRead_mapped (off := 0x310) (r := .kreg0) (by decide) (by decide) s

theorem busRead_kreg1 (s : State) : busRead 0x314 s = .next { s with reply := some (keyWord1 s.k) } :=
  busRead_mapped (off := 0x314) (r := .kreg1) (by decide) (by decide) s

theorem busRead_kreg2 (s : State) : busRead 0x318 s = .next { s with reply := some (keyWord2 s.k) } :=
  busRead_mapped (off := 0x318) (r := .kreg2) (by decide) (by decide) s

theorem busWrite_key0 (v : Word) (s : State) : busWrite 0x300 v s = .next { s with keyin := setKeyWord0 s.keyin v } :=
  busWrite_mapped (off := 0x300) (r := .key0) (by decide) (by decide) v s

theorem busWrite_key1 (v : Word) (s : State) : busWrite 0x304 v s = .next { s with keyin := setKeyWord1 s.keyin v } :=
  busWrite_mapped (off := 0x304) (r := .key1) (by decide) (by decide) v s

theorem busWrite_key2 (v : Word) (s : State) : busWrite 0x308 v s = .next { s with keyin := setKeyWord2 s.keyin v } :=
  busWrite_mapped (off := 0x308) (r := .key2) (by decide) (by decide) v s

theorem busWrite_kreg2 (v : Word) (s : State) : busWrite 0x318 v s = .next (recorded .busWriteRo s) :=
  busWrite_readOnly (off := 0x318) (r := .kreg2) rfl (by decide) (by decide) v s

/-! ### The buffers and the planes -/

/-- Settles O42: a DIN word is its four bytes, a write replaces those four, and a lane is its two words. -/
theorem dinWordsAreLittleEndian : Obligations.DinWordsAreLittleEndian := by
  intro s w v hw
  refine ⟨⟨_, busRead_din s hw, rfl, congrArg some (bufWord_eq_or s.din w)⟩, ⟨_, busWrite_din s hw v, rfl, ?written, ?kept⟩, ?lane⟩
  case written =>
    intro k hk
    rw [get_setBufWord _ _ _ (by omega), if_pos (by omega), show (4 * w + k) % 4 = k by omega]
  case kept =>
    intro b hb hne
    rw [get_setBufWord _ _ _ hb, if_neg hne]
  case lane =>
    intro i x y hi hx hy
    rw [show 8 * i = 4 * (2 * i) by omega] at hx
    rw [show 8 * i + 4 = 4 * (2 * i + 1) by omega] at hy
    rw [busRead_answer_unique hx (busRead_din s (by omega)), busRead_answer_unique hy (busRead_din s (by omega))]
    exact bufLane_eq_or s.din i

/-- Settles O43: a DOUT word is its four bytes, a lane is its two words, and the register is read-only. -/
theorem doutWordsAreReadOnly : Obligations.DoutWordsAreReadOnly := by
  intro s w v hw
  refine ⟨⟨_, busRead_dout s hw, rfl, congrArg some (bufWord_eq_or s.dout w)⟩, ?lane,
    busWrite_readOnly rfl (aligned_ofNat (by omega) (by omega)) (regAt_doutw hw) v s⟩
  case lane =>
    intro i x y hi hx hy
    rw [show 8 * i = 4 * (2 * i) by omega] at hx
    rw [show 0x104 + 8 * i = 0x100 + 4 * (2 * i + 1) by omega] at hy
    rw [busRead_answer_unique hx (busRead_dout s (by omega)), busRead_answer_unique hy (busRead_dout s (by omega))]
    exact bufLane_eq_or s.dout i

/-- Settles O44: a plane read is S[j], whose bits are the lanes' bits j, and the register is read-only. -/
theorem planesAreReadOnly : Obligations.PlanesAreReadOnly := by
  intro s j v hj
  exact ⟨busRead_plane s hj, fun i _ => (getLsbD_lane s.planes i hj).symm,
    busWrite_readOnly rfl (aligned_ofNat (by omega) (by omega)) (regAt_plane hj) v s⟩

/-! ### The key registers -/

/-- The upper half of key word 2 lies above the key's 80 bits, so it reads 0 (R57, R59). -/
theorem keyWord2_eq_extractLsb' (K : Key) : keyWord2 K = K.extractLsb' 64 32 := by
  apply bv_ext
  intro i hi
  rw [getLsbD_keyWord2 K hi, BitVec.getLsbD_extractLsb']
  by_cases h : i < 16
  · simp [h, hi]
  · simp [h, BitVec.getLsbD_of_ge K (64 + i) (by omega)]

theorem keyWord2_lt (K : Key) : (keyWord2 K).toNat < 2 ^ 16 := by
  rw [keyWord2, BitVec.toNat_setWidth_of_le (by decide)]
  exact BitVec.isLt _

/-- KEY word `q` is the 32 bits of KEYIN from bit `32q` up (R57). -/
theorem busRead_keyWord (s : State) {q : Nat} (hq : q < 3) :
    busRead (BitVec.ofNat 12 (0x300 + 4 * q)) s = .next { s with reply := some (s.keyin.extractLsb' (32 * q) 32) } := by
  obtain rfl | rfl | rfl : q = 0 ∨ q = 1 ∨ q = 2 := by omega
  · exact busRead_key0 s
  · exact busRead_key1 s
  · rw [← keyWord2_eq_extractLsb']
    exact busRead_key2 s

/-- Byte `i` of a key is byte `i mod 4` of its word `i / 4` (R10, R57). -/
theorem extractLsb'_key_byte (K : Key) (i : Nat) :
    (K.extractLsb' (32 * (i / 4)) 32).extractLsb' (8 * (i % 4)) 8 = K.extractLsb' (8 * i) 8 := by
  apply bv_ext
  intro b hb
  simp only [BitVec.getLsbD_extractLsb', show 8 * (i % 4) + b < 32 by omega, decide_true, Bool.true_and,
    show 32 * (i / 4) + (8 * (i % 4) + b) = 8 * i + b by omega]

theorem setKeyWord0_low (K : Key) (v : Word) : (setKeyWord0 K v).extractLsb' 0 32 = v := BitVec.extractLsb'_append_eq_right

theorem setKeyWord0_high (K : Key) (v : Word) : (setKeyWord0 K v).extractLsb' 32 48 = K.extractLsb' 32 48 :=
  BitVec.extractLsb'_append_eq_left

theorem setKeyWord1_low (K : Key) (v : Word) : (setKeyWord1 K v).extractLsb' 0 32 = K.extractLsb' 0 32 :=
  BitVec.extractLsb'_append_eq_right

theorem setKeyWord1_middle (K : Key) (v : Word) : (setKeyWord1 K v).extractLsb' 32 32 = v :=
  (BitVec.extractLsb'_append_eq_of_le (by decide)).trans BitVec.extractLsb'_append_eq_right

theorem setKeyWord1_high (K : Key) (v : Word) : (setKeyWord1 K v).extractLsb' 64 16 = K.extractLsb' 64 16 :=
  (BitVec.extractLsb'_append_eq_of_le (by decide)).trans BitVec.extractLsb'_append_eq_left

theorem setKeyWord2_low (K : Key) (v : Word) : (setKeyWord2 K v).extractLsb' 0 64 = K.extractLsb' 0 64 :=
  BitVec.extractLsb'_append_eq_right

theorem setKeyWord2_high (K : Key) (v : Word) : (setKeyWord2 K v).extractLsb' 64 16 = v.extractLsb' 0 16 :=
  BitVec.extractLsb'_append_eq_left

/-- Writing all three words leaves nothing of the old key (R57). -/
theorem setKeyWords (K : Key) (v2 v1 v0 : Word) :
    setKeyWord0 (setKeyWord1 (setKeyWord2 K v2) v1) v0 = (v2.extractLsb' 0 16 ++ v1 ++ v0 : BitVec (16 + 32 + 32)) := by
  apply bv_ext
  intro i hi
  rw [getLsbD_setKeyWord0 _ _ hi, getLsbD_setKeyWord1 _ _ hi, getLsbD_setKeyWord2 _ _ hi, BitVec.getLsbD_append,
    BitVec.getLsbD_append]
  by_cases h0 : i < 32
  · rw [if_pos h0, if_pos h0]
  by_cases h1 : i < 64
  · rw [if_neg h0, if_neg h0, if_pos h1, if_neg h0, if_pos (by omega)]
  · rw [if_neg h0, if_neg h0, if_neg h1, if_neg h1, if_neg h0, if_neg (by omega), BitVec.getLsbD_extractLsb']
    simp [show i - 32 - 32 = i - 64 by omega, show i - 64 < 16 by omega]

/-- Settles O45: each word's read and write, the bytes within the words, and the example, whose writes leave nothing of the old key. -/
theorem keyInputIsThreeWords : Obligations.KeyInputIsThreeWords := by
  intro s v
  refine ⟨busRead_key0 s, busRead_key1 s, busRead_key2 s,
    ⟨_, busWrite_key0 v s, rfl, setKeyWord0_low _ v, setKeyWord0_high _ v⟩,
    ⟨_, busWrite_key1 v s, rfl, setKeyWord1_middle _ v, setKeyWord1_low _ v, setKeyWord1_high _ v⟩,
    ⟨_, busWrite_key2 v s, rfl, setKeyWord2_high _ v, setKeyWord2_low _ v⟩, ?byte,
    ⟨_, _, _, busWrite_key2 _ s, busWrite_key1 _ _, busWrite_key0 _ _, ?key⟩⟩
  case byte =>
    intro i x hi hx
    rw [busRead_answer_unique hx (busRead_keyWord s (by omega))]
    exact extractLsb'_key_byte s.keyin i
  case key =>
    simp only [setKeyWords]
    rfl

/-- Settles O46: the three words of K, each in a read-only register. -/
theorem keyRegisterIsReadableAndReadOnly : Obligations.KeyRegisterIsReadableAndReadOnly := by
  intro s v
  exact ⟨busRead_kreg0 s, busRead_kreg1 s, busRead_kreg2 s,
    busWrite_readOnly (off := 0x310) (r := .kreg0) rfl (by decide) (by decide) v s,
    busWrite_readOnly (off := 0x314) (r := .kreg1) rfl (by decide) (by decide) v s, busWrite_kreg2 v s⟩

/-! ### Reserved bits -/

theorem ctrlWord_lt (s : State) : s.ctrlWord.toNat < 2 := by
  rw [ctrlWord_eq]
  split <;> decide

/-- A CTRL write takes bit 0 of the value and no other (R35, R59). -/
theorem writeCtrl_congr (s : State) {v w : Word} (h0 : v.getLsbD 0 = w.getLsbD 0) : s.writeCtrl v = s.writeCtrl w := by
  rw [State.writeCtrl, State.writeCtrl, h0]

/-- A STATUS write takes bits 1 and 2 of the value and no other (R40, R59). -/
theorem writeStatus_congr (s : State) {v w : Word} (h1 : v.getLsbD 1 = w.getLsbD 1) (h2 : v.getLsbD 2 = w.getLsbD 2) :
    s.writeStatus v = s.writeStatus w := by
  rw [State.writeStatus, State.writeStatus, h1, h2]

/-- A KEY2 write takes the value's low half and no other bit (R57, R59). -/
theorem setKeyWord2_congr (K : Key) {v w : Word} (h : v.extractLsb' 0 16 = w.extractLsb' 0 16) : setKeyWord2 K v = setKeyWord2 K w := by
  rw [setKeyWord2, setKeyWord2, h]

/-- A bit that a mask keeps. -/
theorem getLsbD_and_mask (v : Word) {m : Word} {i : Nat} (h : m.getLsbD i = true) : v.getLsbD i = (v &&& m).getLsbD i := by
  rw [BitVec.getLsbD_and, h, Bool.and_true]

theorem extractLsb'_and_lowHalf (v : Word) : v.extractLsb' 0 16 = (v &&& 0x0000FFFF).extractLsb' 0 16 := by
  rw [BitVec.extractLsb'_and, show (0x0000FFFF : Word).extractLsb' 0 16 = BitVec.allOnes 16 by decide, BitVec.and_allOnes]

/-- Settles O47: each register reads 0 in its reserved bits, and each writable one takes only bits that the mask keeps. -/
theorem reservedBitsReadZeroAndIgnoreWrites : Obligations.ReservedBitsReadZeroAndIgnoreWrites := by
  intro s v
  refine ⟨?ctrlRead, ?statusRead, ?key2Read, ?kreg2Read, ⟨_, busWrite_ctrl v s, ?ctrlWrite, rfl, rfl⟩,
    ⟨_, busWrite_status v s, ?statusWrite, ?statusErr⟩, ⟨_, busWrite_key2 v s, ?key2Write, rfl, rfl⟩, busWrite_kreg2 v s⟩
  case ctrlRead =>
    intro x hx
    rw [busRead_answer_unique hx (busRead_ctrl s)]
    exact ctrlWord_lt s
  case statusRead =>
    intro x hx
    rw [busRead_answer_unique hx (busRead_status s)]
    exact ⟨statusWord_reserved_low s, statusWord_reserved_high s⟩
  case key2Read =>
    intro x hx
    rw [busRead_answer_unique hx (busRead_key2 s)]
    exact keyWord2_lt s.keyin
  case kreg2Read =>
    intro x hx
    rw [busRead_answer_unique hx (busRead_kreg2 s)]
    exact keyWord2_lt s.k
  case ctrlWrite => rw [busWrite_ctrl, ← writeCtrl_congr s (getLsbD_and_mask v (by decide))]
  case statusWrite =>
    rw [busWrite_status, ← writeStatus_congr s (getLsbD_and_mask v (by decide)) (getLsbD_and_mask v (by decide))]
  case statusErr =>
    intro he
    rw [State.writeStatus_err, he, Bool.false_and]
  case key2Write => rw [busWrite_key2, ← setKeyWord2_congr s.keyin (extractLsb'_and_lowHalf v)]

/-! ### Any read -/

/-- Settles O48: a mapped read sets the answer alone and a second one sets the same; an unmapped one records its error besides. -/
theorem readsHaveNoSideEffect : Obligations.ReadsHaveNoSideEffect := by
  intro off s ha
  constructor
  · intro hmapped
    obtain ⟨r, hr⟩ := Option.ne_none_iff_exists'.1 hmapped
    exact ⟨_, busRead_mapped ha hr s, rfl, busRead_again ha hr s⟩
  · intro hr
    exact ⟨_, busRead_unmapped ha hr s, rfl⟩

/-- Settles O49: R53's list is where no register lies; elsewhere a read finds its register and leaves ERR and ECAUSE alone. -/
theorem unmappedAccessesRaiseAnError : Obligations.UnmappedAccessesRaiseAnError := by
  intro off v s ha
  rw [← regAt_none_iff ha]
  constructor
  · intro hr
    exact ⟨busRead_unmapped ha hr s, busWrite_unmapped ha hr v s⟩
  · intro hmapped
    obtain ⟨r, hr⟩ := Option.ne_none_iff_exists'.1 hmapped
    exact ⟨_, busRead_mapped ha hr s, rfl, rfl, by simp⟩

end Sys2Proof.Machine
end

section
/-! PROOF of the command encoding's rules R83, R85 and R87 (30_encoding.md): a word decodes to a command exactly when it is that
command's word; a CMD write is checked in order; BUSY turns away every command but NOP. -/

namespace Sys2Proof

/-! ### The opcode map -/

theorem decode_encode (i : Instr) : decode (encode i) = .command i := by
  cases i with
  | kadv r =>
    revert r
    decide +kernel
  | nop | start | load | unload | ldkey | mix | sub | perm => rfl

/-- The decoder and the encoder are inverse: each command has one word, and it alone decodes to the command (R83). -/
theorem decode_command_iff (w : Word) (i : Instr) : decode w = .command i ↔ w = encode i := by
  constructor
  · exact eq_encode_of_decode
  · rintro rfl
    exact decode_encode i

/-- A row whose mask is full is matched by its own word alone (R83). -/
theorem matches_full_mask_iff (w : Word) (i : Instr) : w &&& 0xFFFFFFFF = encode i ↔ decode w = .command i := by
  rw [decode_command_iff, show (0xFFFFFFFF : Word) = BitVec.allOnes 32 from rfl, BitVec.and_allOnes]

/-- The bits outside KADV's mask are the field R (R82, R83). -/
theorem and_roundMask (w : Word) : w &&& (0x00001F00 : Word) = (roundField w).setWidth 32 <<< 8 := by
  have hmask : ∀ j < 32, (0x00001F00 : Word).getLsbD j = (!decide (j < 8) && decide (j - 8 < 5)) := by decide
  apply BitVec.eq_of_getLsbD_eq
  intro j hj
  rw [BitVec.getLsbD_and, hmask j hj]
  simp only [roundField, BitVec.getLsbD_shiftLeft, BitVec.getLsbD_setWidth, BitVec.getLsbD_extractLsb']
  by_cases h8 : j < 8
  · simp [h8]
  · simp [h8, hj, show j - 8 < 32 by omega, show 8 + (j - 8) = j by omega, Bool.and_comm]

/-- A word that matches KADV's row is the word of KADV with R as its round number (R83). -/
theorem eq_encode_kadv_of_matches {w : Word} (h : w &&& 0xFFFFE0FF = 0x00000008) : w = encode (.kadv (roundField w)) :=
  calc w = w &&& (0xFFFFE0FF ||| 0x00001F00) := BitVec.and_allOnes.symm
    _ = (w &&& 0xFFFFE0FF) ||| (w &&& 0x00001F00) := BitVec.and_or_distrib_left
    _ = (0x00000008 : Word) ||| ((roundField w).setWidth 32 <<< 8) := by rw [h, and_roundMask]

theorem encode_kadv_matches : ∀ r : Round, encode (.kadv r) &&& 0xFFFFE0FF = 0x00000008 := by decide +kernel

theorem roundField_eq_ofNat (w : Word) : roundField w = BitVec.ofNat 5 (w.toNat / 2 ^ 8) :=
  BitVec.eq_of_toNat_eq ((roundField_toNat w).trans (BitVec.toNat_ofNat _ 5).symm)

/-- Settles O1: the rows with a full mask hold one word each, KADV's row is the words of KADV, and the other opcodes are illegal. -/
theorem opcodeMapDecodesEachRow : Obligations.OpcodeMapDecodesEachRow := by
  intro w
  refine ⟨matches_full_mask_iff w .nop, matches_full_mask_iff w .start, matches_full_mask_iff w .load, matches_full_mask_iff w .unload,
    matches_full_mask_iff w .ldkey, matches_full_mask_iff w .mix, matches_full_mask_iff w .sub, matches_full_mask_iff w .perm,
    ?kadv, ?onlyKadv, decode_illegalOp⟩
  case kadv =>
    intro h
    rw [← roundField_eq_ofNat, decode_command_iff]
    exact eq_encode_kadv_of_matches h
  case onlyKadv =>
    intro r hd
    rw [eq_encode_of_decode hd]
    exact encode_kadv_matches r

/-- A word that passes the decoder's two checks is the command of its OP and R (R83, R85). -/
theorem decode_of_checks {w : Word} (hop : w.toNat % 16 < 9)
    (hclear : ¬ (w.toNat / 8192 ≠ 0 ∨ w.toNat / 16 % 16 ≠ 0 ∨ (w.toNat % 16 ≠ 8 ∧ w.toNat / 256 % 32 ≠ 0))) :
    decode w = .command (instrOf (opField w) (roundField w)) :=
  decode_legal hop (Bool.eq_false_iff.2 (mt (reservedBitsSet_iff w).1 hclear))

/-- NOP is opcode 0 and no other (R83). -/
theorem instrOf_eq_nop_iff : ∀ (op : Nibble) (r : Round), instrOf op r = .nop ↔ op.toNat = 0 := by decide +kernel

end Sys2Proof

namespace Sys2Proof.Machine

/-! ### The checks of a CMD write -/

/-- Settles O5: each check by what the decoder answers; a word that passes those of the decoder runs its command, which makes the
BUSY check. -/
theorem commandWriteChecksInOrder : Obligations.CommandWriteChecksInOrder := by
  intro w s
  have hnop : instrOf (opField w) (roundField w) = .nop ↔ w.toNat % 16 = 0 := by rw [instrOf_eq_nop_iff, opField_toNat]
  refine ⟨?illegal, ?reserved, ?nop, ?busy, ?accepted⟩
  case illegal => exact fun hop => runCommand_of_rejected (decode_illegalOp hop) s
  case reserved => exact fun hop hset => runCommand_of_rejected (decode_reservedBits hop ((reservedBitsSet_iff w).2 hset)) s
  case nop =>
    intro hop hclear h0
    rw [runCommand_of_command (decode_of_checks hop hclear), hnop.2 h0, exec_nop]
  case busy =>
    intro hop hclear h0 hb
    rw [runCommand_of_command (decode_of_checks hop hclear), exec_of_busy (mt hnop.1 h0) hb]
  case accepted =>
    intro hop hclear _ _
    exact ⟨_, (eq_encode_of_decode (decode_of_checks hop hclear)).symm, runCommand_of_command (decode_of_checks hop hclear) s⟩

/-! ### The BUSY check of a command -/

/-- No command's effect touches the recorded error (R87). -/
theorem effect_err (i : Instr) (s : State) : (effect i s).err = s.err ∧ (effect i s).ecause = s.ecause := by
  cases i <;> exact ⟨rfl, rfl⟩

/-- Settles O6: BUSY is ROUND or FINAL, and an accepted command has only its effect. -/
theorem busyTurnsAwayEveryCommandButNop : Obligations.BusyTurnsAwayEveryCommandButNop := by
  intro i s hi
  rw [← State.busy_iff, ← State.not_busy_iff]
  exact ⟨exec_of_busy hi, fun hb => ⟨_, exec_of_not_busy i hb, effect_err i s⟩⟩

end Sys2Proof.Machine
end

section
/-! PROOF of R104 and R105 (40_transpose.md): LOAD and UNLOAD. First the two transposes: that they invert each other, and the planes and
lanes of the rules' corner cases and examples. -/

namespace Sys2Proof.Machine

/-! ### The transposes -/

/-- R102, first law: in each lane, both functions keep the block. -/
theorem fromBitplanes_toBitplanes (D : Buffer) : fromBitplanes (toBitplanes D) = D :=
  buffer_ext_lane fun _ hi => (bufLane_fromBitplanes _ hi).trans (lane_toBitplanes D hi)

/-- R102, second law. -/
theorem toBitplanes_fromBitplanes (T : Planes) : toBitplanes (fromBitplanes T) = T :=
  planes_ext_lane fun _ hi => (lane_toBitplanes _ hi).trans (bufLane_fromBitplanes T hi)

/-- Plane `j` gathers bit `j mod 8` of one byte per lane, so where every bit of the buffer is `v`, so is every bit of the planes. -/
theorem get_toBitplanes_of_bytes_fill {v : Bool} {D : Buffer} (hD : ∀ b, b < 256 → D.get b = BitVec.fill 8 v) {j : Nat} (hj : j < 64) :
    (toBitplanes D).get j = BitVec.fill 32 v := by
  apply bv_ext
  intro i hi
  have hm : j % 8 < 8 := Nat.mod_lt _ (by decide)
  rw [getLsbD_toBitplanes D hj hi, hD _ (by omega), BitVec.getLsbD_fill, BitVec.getLsbD_fill, decide_eq_true hm, decide_eq_true hi]

/-- Where lane `i` holds the number `i`, bit `i` of plane `j` is bit `j` of the number `i`. -/
theorem get_toBitplanes_of_counting {D : Buffer} (hD : ∀ i, i < 32 → bufLane D i = BitVec.ofNat 64 i) {j : Nat} (hj : j < 64) :
    (toBitplanes D).get j = bits 32 fun i => i.testBit j := by
  apply bv_ext
  intro i hi
  rw [← getLsbD_lane _ _ hj, lane_toBitplanes D hi, hD i hi, BitVec.getLsbD_ofNat, getLsbD_bits, decide_eq_true hj, decide_eq_true hi]

/-- The numbers below 32 have no bit from 5 up. -/
theorem bits_testBit_eq_zero {j : Nat} (hj : 5 ≤ j) : (bits 32 fun i => i.testBit j) = 0 := by
  apply bv_ext
  intro i hi
  have hlt : i < 2 ^ j := Nat.lt_of_lt_of_le hi (Nat.pow_le_pow_right (n := 2) (by decide) hj)
  simp [Nat.testBit_lt_two_pow hlt]

/-- The planes of R105's example: bit 0 of lane 0 and bit 63 of lane 31 are 1, and all other bits are 0. -/
def cornerPlanes : Planes := Arr.tab 64 fun j => if j = 0 then 0x00000001 else if j = 63 then 0x80000000 else 0

theorem lane_cornerPlanes :
    ∀ i, i < 32 → lane cornerPlanes i = if i = 0 then 0x0000000000000001 else if i = 31 then 0x8000000000000000 else 0 := by
  decide +kernel

theorem eq_cornerPlanes {T : Planes} (h0 : T.get 0 = 0x00000001) (h63 : T.get 63 = 0x80000000)
    (hmid : ∀ j, 0 < j → j < 63 → T.get j = 0) : T = cornerPlanes := by
  apply Arr.ext_get
  intro j hj
  rw [cornerPlanes, Arr.get_tab _ hj]
  split
  · next h => rw [h, h0]
  · next hne0 =>
    split
    · next h => rw [h, h63]
    · next hne63 => exact hmid j (by omega) (by omega)

/-! ### The commands -/

/-- UNLOAD changes nothing where DOUT already holds the transposed planes (R105). -/
theorem effect_unload_of_dout_eq {s : State} (h : s.dout = fromBitplanes s.planes) : effect .unload s = s := by
  rw [effect, ← h]

/-- Settles O14: an accepted LOAD has its effect, and each plane of it is read off bit by bit. -/
theorem loadTransposesInputIntoPlanes : Obligations.LoadTransposesInputIntoPlanes := by
  refine ⟨decode_encode .load, fun s => ⟨exec_of_busy (by decide), fun hb => ?_⟩⟩
  refine ⟨effect .load s, exec_of_not_busy .load hb, rfl, fun j i => getLsbD_toBitplanes s.din,
    fun hD j => get_toBitplanes_of_bytes_fill (v := false) hD, fun hD j => get_toBitplanes_of_bytes_fill (v := true) hD, ?again, ?worked⟩
  case again => exact exec_of_not_busy (s := effect .load s) .load hb
  case worked =>
    intro hD
    have hplane : ∀ j, j < 64 → (effect .load s).planes.get j = bits 32 fun i => i.testBit j :=
      fun j => get_toBitplanes_of_counting hD
    refine ⟨(hplane 0 ?_).trans ?_, (hplane 1 ?_).trans ?_, (hplane 2 ?_).trans ?_, (hplane 3 ?_).trans ?_,
      (hplane 4 ?_).trans ?_, fun j h5 hj => (hplane j hj).trans (bits_testBit_eq_zero h5)⟩ <;> decide

/-- Settles O15: an accepted UNLOAD has its effect; the transposes' inverse laws give back the planes, and DIN after a LOAD. -/
theorem unloadTransposesPlanesIntoOutput : Obligations.UnloadTransposesPlanesIntoOutput := by
  refine ⟨decode_encode .unload, fun s => ⟨exec_of_busy (by decide), fun hb => ?_⟩, ?afterLoad, ?afterFinal⟩
  · refine ⟨effect .unload s, exec_of_not_busy .unload hb, rfl, ?bits, toBitplanes_fromBitplanes s.planes, ?worked⟩
    case bits =>
      intro i m b hi hm h8
      have hbit := getLsbD_fromBitplanes s.planes (n := 8 * i + m) (by omega) h8
      rwa [show (8 * i + m) % 8 = m by omega, show (8 * i + m) / 8 = i by omega] at hbit
    case worked =>
      intro h0 h63 hmid
      have hlane : ∀ i, i < 32 → bufLane (effect .unload s).dout i = lane cornerPlanes i := fun i hi => by
        rw [← eq_cornerPlanes h0 h63 hmid]
        exact bufLane_fromBitplanes s.planes hi
      refine ⟨(hlane 0 (by decide)).trans (lane_cornerPlanes 0 (by decide)),
        (hlane 31 (by decide)).trans (lane_cornerPlanes 31 (by decide)), fun i hpos hlt => ?_⟩
      rw [hlane i (by omega), lane_cornerPlanes i (by omega), if_neg (by omega), if_neg (by omega)]
  case afterLoad =>
    intro s t hb hload
    rw [exec_of_not_busy .load hb] at hload
    cases hload
    exact ⟨_, exec_of_not_busy (s := effect .load s) .unload hb, fromBitplanes_toBitplanes s.din⟩
  case afterFinal =>
    intro s hf
    rw [coreStep_final hf, exec_of_not_busy .unload rfl, effect_unload_of_dout_eq (finalStep_dout s)]

end Sys2Proof.Machine
end

section
/-! PROOF of R140, R142 and R144 (42_permutation.md): PERM moves each plane to its place. -/

namespace Sys2Proof.Machine

/-- R142: the plane at index `j` moves to index `P(j)`. -/
theorem get_permute_permIndex (S : Planes) {j : Nat} (hj : j < 64) : (permute S).get (permIndex j) = S.get j := by
  rw [get_permute S (permIndex_lt hj), permSource_permIndex hj]

/-- Settles O20: an accepted PERM has its effect, which moves the plane at each index `j` to `P(j)`. -/
theorem permMovesEachPlane : Obligations.PermMovesEachPlane := by
  refine ⟨decode_encode .perm, fun s => ⟨exec_of_busy (by decide), fun hb => ?accepted⟩⟩
  case accepted => exact ⟨effect .perm s, exec_of_not_busy .perm hb, rfl, fun _ => get_permute_permIndex s.planes⟩

end Sys2Proof.Machine
end

section
/-! PROOF of R160, R161, R166 and R167 (43_key_schedule.md): the key update range by range, then LDKEY and KADV. -/

namespace Sys2Proof.Machine

/-! ### The key update -/

/-- The nibble that step 2 substitutes comes from bits 18:15 of the old key (R160, R161). -/
theorem extractLsb'_rotateKey_top (K : Key) : (rotateKey K).extractLsb' 76 4 = K.extractLsb' 15 4 := by
  apply bv_ext
  intro i hi
  rw [BitVec.getLsbD_extractLsb', BitVec.getLsbD_extractLsb', getLsbD_rotateKey K (by omega),
    show (76 + i + 19) % 80 = 15 + i by omega]

/-- Bits 0 to 14 and 20 to 75 are only rotated (R161). -/
theorem getLsbD_advance_of_only_rotated (K : Key) (r : Round) {i : Nat} (h : i < 15 ∨ (20 ≤ i ∧ i < 76)) :
    (advance K r).getLsbD i = (rotateKey K).getLsbD i := by
  have hround : (decide (15 ≤ i) && r.getLsbD (i - 15)) = false := by
    obtain hlow | ⟨hmid, -⟩ := h
    · rw [decide_eq_false (by omega), Bool.false_and]
    · rw [BitVec.getLsbD_of_ge r _ (by omega), Bool.and_false]
  rw [advance, getLsbD_xorRound _ _ (by omega), getLsbD_substituteTop, if_pos (by omega), hround, Bool.xor_false]

/-- Step 3 acts on bits 19:15, which step 2 does not reach (R161). -/
theorem getLsbD_advance_round (K : Key) (r : Round) {m : Nat} (hm : m < 5) :
    (advance K r).getLsbD (15 + m) = ((rotateKey K).getLsbD (15 + m) ^^ r.getLsbD m) := by
  rw [advance, getLsbD_xorRound _ _ (by omega), getLsbD_substituteTop, if_pos (by omega), decide_eq_true (Nat.le_add_right 15 m),
    Bool.true_and, Nat.add_sub_cancel_left]

theorem extractLsb'_advance_round (K : Key) (r : Round) :
    (advance K r).extractLsb' 15 5 = (rotateKey K).extractLsb' 15 5 ^^^ r := by
  apply bv_ext
  intro m hm
  simp only [BitVec.getLsbD_xor, BitVec.getLsbD_extractLsb', hm, decide_true, Bool.true_and, getLsbD_advance_round]

/-- Step 2 acts on bits 79:76, which step 3 does not reach (R161). -/
theorem extractLsb'_advance_top (K : Key) (r : Round) : (advance K r).extractLsb' 76 4 = sbox (K.extractLsb' 15 4) := by
  apply bv_ext
  intro i hi
  rw [BitVec.getLsbD_extractLsb', decide_eq_true hi, Bool.true_and, advance, getLsbD_xorRound _ _ (by omega),
    BitVec.getLsbD_of_ge r _ (by omega), Bool.and_false, Bool.xor_false, getLsbD_substituteTop, if_neg (by omega),
    extractLsb'_rotateKey_top, Nat.add_sub_cancel_left]

theorem xorRound_zero (K : Key) : xorRound K 0 = K := BitVec.xor_zero

/-- Settles O25: the rotation bit by bit, and each range of the updated key by the one step that acts on it. -/
theorem advanceKeyBitByBit : Obligations.AdvanceKeyBitByBit := by
  intro K r
  refine ⟨fun i => getLsbD_rotateKey K, ?rotated, ?round, extractLsb'_advance_top K r⟩
  case rotated =>
    intro i h
    rw [getLsbD_advance_of_only_rotated K r h, getLsbD_rotateKey K (by omega)]
  case round =>
    intro m hm
    rw [getLsbD_advance_round K r hm, getLsbD_rotateKey K (by omega), Nat.mod_eq_of_lt (by omega)]

/-! ### The commands -/

@[simp] theorem effect_kadv_k (r : Round) (s : State) : (effect (.kadv r) s).k = advance s.k r := rfl

/-- Settles O17: an accepted KADV has its effect; with r = 0 step 3 does nothing, and with r = 31 it sets the bits that hold 0. -/
theorem kadvAdvancesTheKeyOnce : Obligations.KadvAdvancesTheKeyOnce := by
  refine ⟨fun r => decode_encode (.kadv r), ?reserved, fun r s => ⟨exec_of_busy (by simp), fun hb => ?accepted⟩⟩
  case reserved =>
    intro w s hop hset
    exact runCommand_of_rejected (decode_reservedBits (by omega) ((reservedBitsSet_iff w).2 (hset.imp_right .inl))) s
  case accepted =>
    refine ⟨effect (.kadv r) s, exec_of_not_busy (.kadv r) hb, rfl, ?zero, ?example0, ?example1, ?ones⟩
    case zero =>
      rintro rfl
      exact xorRound_zero _
    case example0 =>
      rintro hk rfl
      rw [effect_kadv_k, hk]
      decide
    case example1 =>
      rintro hk rfl
      rw [effect_kadv_k, hk]
      decide
    case ones =>
      rintro rfl hzero
      rw [effect_kadv_k, extractLsb'_advance_round, hzero]
      exact BitVec.zero_xor

/-- Settles O16: an accepted LDKEY has its effect; the engine is not BUSY after its FINAL step, which leaves KEYIN alone. -/
theorem ldkeyCopiesTheKeyInput : Obligations.LdkeyCopiesTheKeyInput := by
  refine ⟨decode_encode .ldkey, ?afterFinal, fun s => ⟨exec_of_busy (by decide), fun hb => ?accepted⟩⟩
  case afterFinal =>
    intro s hf
    rw [coreStep_final hf]
    exact exec_of_not_busy .ldkey rfl
  case accepted =>
    refine ⟨effect .ldkey s, exec_of_not_busy .ldkey hb, rfl, fun hk => ?_⟩
    show keyWord2 s.keyin = _ ∧ keyWord1 s.keyin = _ ∧ keyWord0 s.keyin = _
    rw [hk]
    decide

end Sys2Proof.Machine
end

section
/-! PROOF of R180 and R182 (44_mixer.md): MIX. First the mixer's involution and the round keys of the rule's corner cases. -/

namespace Sys2Proof.Machine

/-! ### The mixer -/

/-- Plane by plane, with the round key's bits as bits of the key register (R180, R24). -/
theorem get_mix_roundKey (S : Planes) (K : Key) {j : Nat} (hj : j < 64) :
    (mix S (roundKey K)).get j = if K.getLsbD (16 + j) then S.get j ^^^ 0xFFFFFFFF else S.get j := by
  rw [get_mix S _ hj, getLsbD_roundKey K hj]
  split
  · rfl
  · exact BitVec.xor_zero

/-- In each lane the round key cancels itself. -/
theorem mix_mix (S : Planes) (rk : Block) : mix (mix S rk) rk = S :=
  planes_ext_lane fun i hi => by
    rw [lane_mix _ _ hi, lane_mix _ _ hi, BitVec.xor_assoc, BitVec.xor_self, BitVec.xor_zero]

theorem mix_zero (S : Planes) : mix S 0 = S :=
  planes_ext_lane fun _ hi => (lane_mix S 0 hi).trans BitVec.xor_zero

theorem get_mix_allOnes (S : Planes) {j : Nat} (hj : j < 64) : (mix S (BitVec.allOnes 64)).get j = ~~~ S.get j := by
  rw [get_mix S _ hj, BitVec.getLsbD_allOnes, decide_eq_true hj]
  exact BitVec.xor_allOnes

/-- K[15:0] is no part of the round key (R24). -/
theorem roundKey_congr {K L : Key} (h : K.toNat / 2 ^ 16 = L.toNat / 2 ^ 16) : roundKey K = roundKey L := by
  apply BitVec.eq_of_toNat_eq
  rw [roundKey, roundKey, BitVec.extractLsb'_toNat, BitVec.extractLsb'_toNat, Nat.shiftRight_eq_div_pow, Nat.shiftRight_eq_div_pow, h]

theorem lane_of_planes_zero {S : Planes} (hS : ∀ j, j < 64 → S.get j = 0) (i : Nat) : lane S i = 0 := by
  apply block_ext
  intro j hj
  rw [getLsbD_lane S i hj, hS j hj]
  exact BitVec.getLsbD_zero.trans BitVec.getLsbD_zero.symm

/-! ### The command -/

@[simp] theorem effect_mix_planes (s : State) : (effect .mix s).planes = mix s.planes (roundKey s.k) := rfl

/-- MIX leaves K alone, so a second MIX has the same round key (R182). -/
theorem effect_mix_mix (s : State) : effect .mix (effect .mix s) = s := by
  have hplanes : (effect .mix (effect .mix s)).planes = s.planes := mix_mix s.planes (roundKey s.k)
  exact congrArg (fun S => { s with planes := S }) hplanes

theorem effect_mix_of_roundKey_zero {s : State} (h : roundKey s.k = 0) : effect .mix s = s := by
  rw [effect, h, mix_zero]

/-- Settles O18: an accepted MIX has its effect; the corner cases follow from the round key that each key gives. -/
theorem mixXorsTheRoundKeyIntoEveryPlane : Obligations.MixXorsTheRoundKeyIntoEveryPlane := by
  refine ⟨decode_encode .mix, fun s => ⟨exec_of_busy (by decide), fun hb => ?accepted⟩⟩
  case accepted =>
    refine ⟨effect .mix s, exec_of_not_busy .mix hb, rfl, fun j => get_mix_roundKey s.planes s.k, ?lowBits, ?lowKey, ?twice,
      ?ones, ?worked⟩
    case lowBits =>
      intro u hu hplanes hk
      refine ⟨effect .mix u, exec_of_not_busy .mix hu, ?_⟩
      rw [effect_mix_planes, effect_mix_planes, hplanes, roundKey_congr hk]
    case lowKey =>
      intro hk
      exact effect_mix_of_roundKey_zero (by rw [hk]; decide)
    case twice =>
      have hagain : exec .mix (effect .mix s) = .next (effect .mix (effect .mix s)) := exec_of_not_busy .mix hb
      rw [hagain, effect_mix_mix]
    case ones =>
      intro hk j hj
      have hrk : roundKey s.k = BitVec.allOnes 64 := by rw [hk]; decide
      rw [effect_mix_planes, hrk, get_mix_allOnes _ hj]
    case worked =>
      intro hk hzero
      have hrk : roundKey s.k = 1 := by rw [hk]; decide
      refine ⟨?_, fun i hi => ?_⟩
      · rw [effect_mix_planes, hrk, get_mix _ _ (by decide), hzero 0 (by decide)]
        decide
      · rw [effect_mix_planes, hrk, lane_mix _ _ hi, lane_of_planes_zero hzero]
        exact BitVec.zero_xor

end Sys2Proof.Machine
end

section
/-! PROOF of R191 and R192 (45_control.md): NOP and START. First the words that share NOP's OP, what START leaves in the control registers,
and what the host's writes to DIN and KEYIN can change for the engine. -/

namespace Sys2Proof

/-- All bits of a word outside OP are reserved where OP is not KADV's, so 0 is the one word that has OP 0 and no reserved bit
(R82, R191). -/
theorem reservedBitsSet_of_op_zero {w : Word} (hop : w.toNat % 16 = 0) (hne : w ≠ 0) : reservedBitsSet w = true := by
  have hpos : w.toNat ≠ 0 := fun h => hne (BitVec.eq_of_toNat_eq h)
  rw [reservedBitsSet_iff]
  omega

end Sys2Proof

namespace Sys2Proof.Machine

/-! ### NOP -/

/-- Settles O12: NOP is never turned away; of the words with OP 0, each but NOP's own fails the decoder's second check. -/
theorem nopChangesNothing : Obligations.NopChangesNothing := by
  refine ⟨exec_nop, fun w => decode_command_iff w .nop, ?reserved⟩
  case reserved =>
    intro w s hop hne
    exact runCommand_of_rejected (decode_reservedBits (by omega) (reservedBitsSet_of_op_zero hop hne)) s

/-! ### START -/

@[simp] theorem effect_start_rc (s : State) : (effect .start s).rc = 1 := rfl

@[simp] theorem effect_start_fsm (s : State) : (effect .start s).fsm = .round := rfl

@[simp] theorem effect_start_done (s : State) : (effect .start s).done = false := rfl

@[simp] theorem effect_start_busy (s : State) : (effect .start s).busy = true := rfl

/-- START clears DONE, so irq is low whatever IRQEN is (R42, R192). -/
@[simp] theorem effect_start_irq (s : State) : (effect .start s).irq = false := Bool.and_false s.irqen

/-- R192's example: RC is 1, fsm is ROUND and BUSY is set; all else in STATUS is 0. -/
theorem statusWord_effect_start {s : State} (herr : s.err = false) (hcause : s.ecause = 0) :
    (effect .start s).statusWord = 0x00010101 := by
  obtain ⟨herr', hcause'⟩ := effect_err .start s
  rw [State.statusWord, effect_start_rc, effect_start_fsm, effect_start_done, effect_start_busy, effect_start_irq,
    herr'.trans herr, hcause'.trans hcause]
  decide

/-- A write to the DIN words or to KEY0, KEY1 or KEY2 changes only DIN and KEYIN (R54, R57). -/
theorem busWrite_input_frame {off : Offset} {v : Word} {s t : State}
    (hoff : off.toNat < 0x100 ∨ off = 0x300 ∨ off = 0x304 ∨ off = 0x308) (h : busWrite off v s = .next t) :
    t = { s with din := t.din, keyin := t.keyin } := by
  obtain hdin | rfl | rfl | rfl := hoff
  · obtain ⟨haligned, -⟩ := busWrite_next h
    cases (busWrite_mapped haligned (if_pos hdin) v s).symm.trans h
    rfl
  · cases (busWrite_key0 v s).symm.trans h
    rfl
  · cases (busWrite_key1 v s).symm.trans h
    rfl
  · cases (busWrite_key2 v s).symm.trans h
    rfl

/-- The engine neither reads nor writes DIN and KEYIN (R194, R195). -/
theorem coreStep_with_inputs (s : State) (d : Buffer) (k : Key) :
    coreStep { s with din := d, keyin := k } = { coreStep s with din := d, keyin := k } := by
  cases hb : s.busy with
  | false => rw [coreStep_of_not_busy hb, coreStep_of_not_busy (s := { s with din := d, keyin := k }) hb]
  | true =>
    obtain hr | hf := (State.busy_iff s).1 hb
    · rw [coreStep_round hr, coreStep_round (s := { s with din := d, keyin := k }) hr]
      rfl
    · rw [coreStep_final hf, coreStep_final (s := { s with din := d, keyin := k }) hf]
      rfl

/-- Settles O13: an accepted START has its effect, which copies DIN and KEYIN, so the engine does not see a later write to them. -/
theorem startBeginsAnEncryption : Obligations.StartBeginsAnEncryption := by
  refine ⟨decode_encode .start, fun s => ⟨exec_of_busy (by decide), fun hb => ?accepted⟩⟩
  case accepted =>
    refine ⟨effect .start s, exec_of_not_busy .start hb, rfl, fun j i => getLsbD_toBitplanes s.din, effect_start_busy s,
      effect_start_irq s, statusWord_effect_start, ?laterWrite⟩
    case laterWrite =>
      intro off v u hoff hu
      rw [busWrite_input_frame hoff hu]
      exact coreStep_with_inputs _ _ _

end Sys2Proof.Machine
end

section
/-! PROOF of R222 (60_exceptions.md): what raising an error does with ERR set and with ERR clear, and that each transaction that raises one
does nothing else. -/

namespace Sys2Proof.Machine

/-- The first error wins: with ERR set, a later error is lost (R39, R222). -/
theorem raiseError_of_err {s : State} (c : Cause) (h : s.err = true) : raiseError c s = s := if_pos h

theorem raiseError_of_no_err {s : State} (c : Cause) (h : s.err = false) :
    raiseError c s = { s with err := true, ecause := c.code } :=
  if_neg (Bool.eq_false_iff.1 h)

/-- DOUT and the planes fill 0x100 to 0x2FF, and K is read at 0x310, 0x314 and 0x318 (R53). -/
theorem exists_readOnly_regAt {off : Offset}
    (h : 0x100 ≤ off.toNat ∧ off.toNat < 0x300 ∨ off = 0x310 ∨ off = 0x314 ∨ off = 0x318) :
    ∃ r, regAt off = some r ∧ r.readOnly = true := by
  obtain ⟨hlow, hhigh⟩ | rfl | rfl | rfl := h
  · by_cases hdout : off.toNat < 0x200
    · exact ⟨.doutw _, (if_neg (by omega)).trans (if_pos hdout), rfl⟩
    · exact ⟨.plane _, (if_neg (by omega)).trans ((if_neg hdout).trans (if_pos hhigh)), rfl⟩
  · exact ⟨.kreg0, by decide, rfl⟩
  · exact ⟨.kreg1, by decide, rfl⟩
  · exact ⟨.kreg2, by decide, rfl⟩

/-- Settles O56: raising by whether ERR is set already; each transaction that raises by its own lemma, which leaves the error recorded. -/
theorem firstErrorWins : Obligations.FirstErrorWins := by
  intro s
  refine ⟨fun c => raiseError_of_err c, ?first, ?illegal, ?reserved, ?busy, ?unmapped, ?readOnly⟩
  case first =>
    intro herr
    exact ⟨raiseError_of_no_err _ herr, raiseError_of_no_err _ herr, raiseError_of_no_err _ herr, raiseError_of_no_err _ herr,
      raiseError_of_no_err _ herr⟩
  case illegal =>
    intro w hw
    rw [raiseError_eq]
    exact runCommand_of_rejected hw s
  case reserved =>
    intro w hw
    rw [raiseError_eq]
    exact runCommand_of_rejected hw s
  case busy =>
    intro i hi hb
    rw [raiseError_eq]
    exact exec_of_busy hi hb
  case unmapped =>
    intro off v ha hr
    rw [raiseError_eq]
    exact ⟨busWrite_unmapped ha hr v s, busRead_unmapped ha hr s⟩
  case readOnly =>
    intro off v ha hoff
    obtain ⟨r, hr, hro⟩ := exists_readOnly_regAt hoff
    rw [raiseError_eq]
    exact busWrite_readOnly hro ha hr v s

end Sys2Proof.Machine
end

section
/-! PROOF of R250 (70_reset_and_hazards.md): a reset event is a step of its own, and what the host reads and sees after it. -/

namespace Sys2Proof.Machine

theorem ctrlWord_resetEvent (s : State) : (resetEvent s).ctrlWord = 0 := by
  rw [ctrlWord_eq, resetEvent_irqen, if_neg Bool.false_ne_true]

theorem busRead_status_resetEvent (s : State) :
    busRead 0x324 (resetEvent s) = .next { resetEvent s with reply := some 0x00000000 } := by
  rw [busRead_status, statusWord_resetEvent]

theorem busRead_ctrl_resetEvent (s : State) :
    busRead 0x320 (resetEvent s) = .next { resetEvent s with reply := some 0x00000000 } := by
  rw [busRead_ctrl, ctrlWord_resetEvent]

theorem resetEvent_busy (s : State) : (resetEvent s).busy = false :=
  (State.not_busy_iff _).2 (.inl (resetEvent_fsm s))

/-- Settles O59: the step is the reset event alone, each assignment by the event's field lemma, each read by the word it answers. -/
theorem resetEventResetsTheControlState : Obligations.ResetEventResetsTheControlState := by
  intro s
  refine ⟨step_reset, resetEvent s, rfl, resetEvent_fsm s, resetEvent_rc s, resetEvent_done s, resetEvent_err s, resetEvent_ecause s,
    resetEvent_irqen s, busRead_status_resetEvent s, busRead_ctrl_resetEvent s, resetEvent_busy s, ?irq⟩
  case irq => rw [State.irq, resetEvent_irqen, Bool.false_and]

end Sys2Proof.Machine
end

section
/-! PROOF of the command encoding's derived sentences (30_encoding.md sections 2 to 4): decode and encode agree in both directions, and the
forty words that decode to a command are the listed ones. -/

namespace Sys2Proof

/-- Settles O3: each direction of `decode_command_iff`. -/
theorem decodeAndEncodeAgree : Obligations.DecodeAndEncodeAgree :=
  ⟨fun i _ => decode_encode i, fun _ _ h => (eq_encode_of_decode h).symm⟩

/-- Settles O2: each word written out is the encoder's word of its command. -/
theorem specWordsDecodeToTheirCommands : Obligations.SpecWordsDecodeToTheirCommands :=
  ⟨decode_encode .nop, decode_encode .start, decode_encode .load, decode_encode .ldkey, decode_encode .mix, decode_encode .sub,
    decode_encode .perm, decode_encode (.kadv 31), decode_encode (.kadv 1)⟩

/-- The commands, in the order of R86's list of their words. -/
def commands : List Instr :=
  [.nop, .start, .load, .unload, .ldkey, .mix, .sub, .perm] ++ (List.range 32).map (fun r => .kadv (BitVec.ofNat 5 r))

theorem mem_commands (i : Instr) : i ∈ commands := by
  cases i with
  | kadv r =>
    have hr : r = BitVec.ofNat 5 r.toNat := (BitVec.ofNat_toNat 5 r).symm
    exact List.mem_append_right _ (List.mem_map.2 ⟨r.toNat, List.mem_range.2 r.isLt, congrArg Instr.kadv hr.symm⟩)
  | nop | start | load | unload | ldkey | mix | sub | perm => simp [commands]

/-- R86's list holds the word of each command, one by one. -/
theorem legalWords_eq : legalWords = commands.map encode := by decide +kernel

theorem mem_legalWords_iff (w : Word) : w ∈ legalWords ↔ ∃ i, decode w = .command i := by
  simp only [legalWords_eq, List.mem_map, mem_commands, true_and, decode_command_iff, eq_comm]

theorem encode_injective : Function.Injective encode := fun i j h =>
  Decoded.command.inj ((decode_encode i).symm.trans ((congrArg decode h).trans (decode_encode j)))

end Sys2Proof

namespace Sys2Proof.Machine

/-- A word that is no command records one of the decoder's two causes (R85). -/
theorem runCommand_of_no_command {w : Word} (h : ¬ ∃ i, decode w = .command i) (s : State) :
    runCommand w s = .next (recorded .cmdIllegalOp s) ∨ runCommand w s = .next (recorded .cmdReservedBits s) := by
  cases hd : decode w with
  | command i => exact absurd ⟨i, hd⟩ h
  | rejected why =>
    cases why with
    | illegalOp => exact .inl (runCommand_of_rejected hd s)
    | reservedBits => exact .inr (runCommand_of_rejected hd s)

/-- Settles O4: the listed words are the commands' words, and different commands have different words. -/
theorem legalWordsAreTheListedForty : Obligations.LegalWordsAreTheListedForty := by
  refine ⟨fun w => (mem_legalWords_iff w).symm, rfl, ?distinct, fun w s hw => ?rejected⟩
  case distinct =>
    rw [legalWords_eq]
    exact List.Nodup.map encode_injective (by decide)
  case rejected => exact runCommand_of_no_command (mt (mem_legalWords_iff w).2 hw) s

end Sys2Proof.Machine
end

section
/-! PROOF of the derived sentences on the cipher's functions (40_transpose.md, 41_substitution.md, 42_permutation.md, 43_key_schedule.md,
44_mixer.md): the layers in lane terms, SUB and PERM, and the key update in bytes. -/

namespace Sys2Proof.Machine

/-! ### The substitution -/

theorem sbox_injective : Function.Injective sbox := by
  have h : ∀ x y, sbox x = sbox y → x = y := by decide +kernel
  exact h

/-- The S-box has no fixed point (R120). -/
theorem sbox_ne_self : ∀ x, sbox x ≠ x := by decide

theorem extractLsb'_substituteBlock (x : Block) {n : Nat} (hn : n < 16) :
    (substituteBlock x).extractLsb' (4 * n) 4 = sbox (x.extractLsb' (4 * n) 4) := by
  apply bv_ext
  intro m hm
  rw [BitVec.getLsbD_extractLsb', decide_eq_true hm, Bool.true_and, substituteBlock, getLsbD_bits, decide_eq_true (by omega),
    Bool.true_and, show (4 * n + m) / 4 = n by omega, show (4 * n + m) % 4 = m by omega]

/-- Blocks with equal nibbles are equal. -/
theorem block_ext_nibble {x y : Block} (h : ∀ n, n < 16 → x.extractLsb' (4 * n) 4 = y.extractLsb' (4 * n) 4) : x = y := by
  apply block_ext
  intro j hj
  have hbit := congrArg (·.getLsbD (j % 4)) (h (j / 4) (by omega))
  simpa only [BitVec.getLsbD_extractLsb', show j % 4 < 4 by omega, decide_true, Bool.true_and,
    show 4 * (j / 4) + j % 4 = j by omega] using hbit

theorem substituteBlock_injective : Function.Injective substituteBlock := by
  intro x y h
  refine block_ext_nibble fun n hn => sbox_injective ?_
  rw [← extractLsb'_substituteBlock x hn, ← extractLsb'_substituteBlock y hn, h]

theorem substitute_injective : Function.Injective substitute := by
  intro S T h
  refine planes_ext_lane fun i hi => substituteBlock_injective ?_
  rw [← lane_substitute S hi, ← lane_substitute T hi, h]

/-- There are finitely many plane arrays: one is given by its 32 lanes. -/
theorem finite_planes : Finite Planes :=
  Finite.of_injective (fun (S : Planes) (i : Fin 32) => (lane S i).toFin) fun _ _ h =>
    planes_ext_lane fun i hi => BitVec.toFin_inj.1 (congrFun h ⟨i, hi⟩)

theorem substitute_bijective : Function.Bijective substitute :=
  have := finite_planes
  substitute_injective.bijective_of_finite

/-- In each lane, the nibbles after the layer are the S-box's values (R124). -/
theorem extractLsb'_lane_substitute (S : Planes) {i n : Nat} (hi : i < 32) (hn : n < 16) :
    (lane (substitute S) i).extractLsb' (4 * n) 4 = sbox ((lane S i).extractLsb' (4 * n) 4) := by
  rw [lane_substitute S hi, extractLsb'_substituteBlock _ hn]

theorem lane_substitute_of_eq {S : Planes} {i : Nat} {x : Block} (hi : i < 32) (h : lane S i = x) :
    lane (substitute S) i = substituteBlock x := by
  rw [lane_substitute S hi, h]

/-- Settles O19: an accepted SUB has its effect, which in each lane is the S-box on every nibble. -/
theorem subSubstitutesEveryNibble : Obligations.SubSubstitutesEveryNibble := by
  refine ⟨decode_encode .sub, substitute_bijective, fun s => ⟨exec_of_busy (by decide), fun hb => ?accepted⟩⟩
  case accepted =>
    refine ⟨effect .sub s, exec_of_not_busy .sub hb, rfl, rfl, ?nibbles, ?zero, ?worked⟩
    case nibbles =>
      intro i n hi hn
      have hnibble := extractLsb'_lane_substitute s.planes hi hn
      exact ⟨hnibble, hnibble ▸ sbox_ne_self _⟩
    case zero =>
      intro hzero
      have hlane : ∀ i, i < 32 → lane (substitute s.planes) i = 0xCCCCCCCCCCCCCCCC := fun i hi =>
        (lane_substitute_of_eq hi (lane_of_planes_zero hzero i)).trans (by decide +kernel)
      refine ⟨hlane, _, exec_of_not_busy (s := effect .sub s) .sub hb, fun hback => ?_⟩
      have hagain : lane (substitute (substitute s.planes)) 0 = substituteBlock 0xCCCCCCCCCCCCCCCC :=
        lane_substitute_of_eq (by decide) (hlane 0 (by decide))
      have hsame : lane (substitute (substitute s.planes)) 0 = 0 := (congrArg (lane · 0) hback).trans (lane_of_planes_zero hzero 0)
      exact absurd (hagain.symm.trans hsame) (by decide +kernel)
    case worked =>
      intro hcount
      exact ⟨(lane_substitute_of_eq (by decide) (hcount 5 (by decide))).trans (by decide +kernel),
        (lane_substitute_of_eq (by decide) (hcount 17 (by decide))).trans (by decide +kernel)⟩

theorem toNat_nibble : ∀ x : Nibble,
    (x.getLsbD 0).toNat + 2 * (x.getLsbD 1).toNat + 4 * (x.getLsbD 2).toNat + 8 * (x.getLsbD 3).toNat = x.toNat := by decide

theorem nibbleOf_eq_ofNat : ∀ b0 b1 b2 b3 : Bool,
    nibbleOf b0 b1 b2 b3 = BitVec.ofNat 4 (b0.toNat + 2 * b1.toNat + 4 * b2.toNat + 8 * b3.toNat) := by decide

/-- Settles O24: each output bit is a bit of the S-box's value, by `getLsbD_circuit`; the four together are its number. -/
theorem circuitAgreesWithTheTable : Obligations.CircuitAgreesWithTheTable := by
  rintro x0 x1 x2 x3 i _ hi rfl
  rw [← nibbleOf_eq_ofNat, ← toNat_nibble]
  have hbit {m : Nat} (hm : m < 4) := getLsbD_circuit x0 x1 x2 x3 hm hi
  rw [← hbit (m := 0) (by decide), ← hbit (m := 1) (by decide), ← hbit (m := 2) (by decide), ← hbit (m := 3) (by decide)]
  rfl

/-! ### The permutation -/

/-- The permutation has order 3 (R140). -/
theorem permSource_thrice {d : Nat} (hd : d < 64) : permSource (permSource (permSource d)) = d := by
  unfold permSource
  omega

theorem permute_thrice (S : Planes) : permute (permute (permute S)) = S := by
  apply Arr.ext_get
  intro d hd
  have h1 := permSource_lt hd
  rw [get_permute _ hd, get_permute _ h1, get_permute _ (permSource_lt h1), permSource_thrice hd]

theorem effect_perm_thrice (s : State) : effect .perm (effect .perm (effect .perm s)) = s :=
  congrArg (fun S => { s with planes := S }) (permute_thrice s.planes)

/-- Where all planes are equal, moving them changes nothing. -/
theorem permute_of_const {S : Planes} {x : Plane} (h : ∀ j, j < 64 → S.get j = x) : permute S = S := by
  apply Arr.ext_get
  intro d hd
  rw [get_permute S hd, h d hd, h _ (permSource_lt hd)]

theorem effect_perm_of_const {s : State} {x : Plane} (h : ∀ j, j < 64 → s.planes.get j = x) : effect .perm s = s :=
  congrArg (fun S => { s with planes := S }) (permute_of_const h)

/-- Settles O21: PERM's effect is `permute`, of order 3 because `permSource` is. -/
theorem permHasOrderThreeAndFourFixedPlanes : Obligations.PermHasOrderThreeAndFourFixedPlanes := by
  intro s hb
  have hthird : exec .perm (effect .perm (effect .perm s)) = .next (effect .perm (effect .perm (effect .perm s))) :=
    exec_of_not_busy .perm hb
  refine ⟨effect .perm s, effect .perm (effect .perm s), exec_of_not_busy .perm hb, exec_of_not_busy (s := effect .perm s) .perm hb,
    hthird.trans (congrArg _ (effect_perm_thrice s)), ?fixed, effect_perm_of_const, effect_perm_of_const, ?worked⟩
  case fixed =>
    rintro j (rfl | rfl | rfl | rfl) <;> exact get_permute s.planes (by decide)
  case worked =>
    intro i _ hlane
    have hmoved := lane_permute s.planes i
    rw [hlane] at hmoved
    exact hmoved.trans (by decide +kernel)

/-! ### Lanes -/

/-- Settles O23: both laws hold because each function keeps every lane's block. -/
theorem transposesInvertEachOther : Obligations.TransposesInvertEachOther :=
  ⟨fromBitplanes_toBitplanes, toBitplanes_fromBitplanes⟩

/-- Settles O27: each layer by its lemma in lane terms. -/
theorem layersActOnEachLaneAlone : Obligations.LayersActOnEachLaneAlone := by
  intro S D rk i hi
  refine ⟨lane_toBitplanes D hi, bufLane_fromBitplanes S hi, lane_mix S rk hi, fun n hn => extractLsb'_lane_substitute S hi hn, ?moved⟩
  case moved =>
    intro j hj
    have hplane := congrArg (·.getLsbD i) (get_permute_permIndex S hj)
    exact (getLsbD_lane _ i (permIndex_lt hj)).trans (hplane.trans (getLsbD_lane S i hj).symm)

/-! ### The key update in bytes -/

/-- Byte `m mod 10` of a key (R10): B[m]. -/
def keyByte (K : Key) (m : Nat) : Byte := K.extractLsb' (8 * (m % 10)) 8

/-- Byte `m` after step 1, from two bytes of the old key: B1[m] (43_key_schedule.md section 1). -/
def rotatedByte (K : Key) (m : Nat) : Byte := (keyByte K (m + 2) >>> 3) ||| (keyByte K (m + 3) <<< 5)

theorem getLsbD_keyByte (K : Key) (m : Nat) {c : Nat} (hc : c < 8) : (keyByte K m).getLsbD c = K.getLsbD (8 * (m % 10) + c) := by
  rw [keyByte, BitVec.getLsbD_extractLsb', decide_eq_true hc, Bool.true_and]

/-- The rotation by 61 moves bytes by two places and bits by three; a byte's upper three bits carry in from the byte after
(R160). -/
theorem getLsbD_rotatedByte (K : Key) {m c : Nat} (hm : m < 10) (hc : c < 8) :
    (rotatedByte K m).getLsbD c = (rotateKey K).getLsbD (8 * m + c) := by
  rw [getLsbD_rotateKey K (by omega), rotatedByte, BitVec.getLsbD_or, BitVec.getLsbD_ushiftRight, BitVec.getLsbD_shiftLeft]
  by_cases hlow : c < 5
  · rw [getLsbD_keyByte K _ (by omega), decide_eq_true hlow, show 8 * ((m + 2) % 10) + (3 + c) = (8 * m + c + 19) % 80 by omega]
    simp
  · rw [BitVec.getLsbD_of_ge (keyByte K (m + 2)) _ (by omega), getLsbD_keyByte K _ (by omega), decide_eq_false hlow, decide_eq_true hc,
      show 8 * ((m + 3) % 10) + (c - 5) = (8 * m + c + 19) % 80 by omega]
    simp

theorem getLsbD_advance_byte (K : Key) (r : Round) (m : Nat) {c : Nat} (hc : c < 8) :
    ((advance K r).extractLsb' (8 * m) 8).getLsbD c = (advance K r).getLsbD (8 * m + c) := by
  rw [BitVec.getLsbD_extractLsb', decide_eq_true hc, Bool.true_and]

/-- Bits that step 2 does not reach: the rotated bit with step 3's round number bit (R161). -/
theorem getLsbD_advance_below_top (K : Key) (r : Round) {i : Nat} (hi : i < 76) :
    (advance K r).getLsbD i = ((rotateKey K).getLsbD i ^^ (decide (15 ≤ i) && r.getLsbD (i - 15))) := by
  rw [advance, getLsbD_xorRound _ _ (by omega), getLsbD_substituteTop, if_pos hi]

/-- Settles O26: bit by bit, each byte by the steps that reach it. -/
theorem advanceKeyByteByByte : Obligations.AdvanceKeyByteByByte := by
  intro K r
  show (∀ m, m = 0 ∨ (3 ≤ m ∧ m < 9) → (advance K r).extractLsb' (8 * m) 8 = rotatedByte K m) ∧
    (advance K r).extractLsb' (8 * 1) 8 = rotatedByte K 1 ^^^ (r.setWidth 8 <<< 7) ∧
    (advance K r).extractLsb' (8 * 2) 8 = rotatedByte K 2 ^^^ (r >>> 1).setWidth 8 ∧
    (advance K r).extractLsb' (8 * 9) 8 =
      (sbox ((rotatedByte K 9).extractLsb' 4 4) ++ (rotatedByte K 9).extractLsb' 0 4 : BitVec (4 + 4))
  refine ⟨fun m hm => ?rotated, ?byte1, ?byte2, ?byte9⟩
  case rotated =>
    apply bv_ext
    intro c hc
    rw [getLsbD_advance_byte K r m hc, getLsbD_rotatedByte K (by omega) hc, getLsbD_advance_of_only_rotated K r (by omega)]
  case byte1 =>
    apply bv_ext
    intro c hc
    rw [getLsbD_advance_byte K r 1 hc, getLsbD_advance_below_top K r (by omega), BitVec.getLsbD_xor,
      getLsbD_rotatedByte K (by decide) hc, BitVec.getLsbD_shiftLeft]
    by_cases h7 : c = 7
    · subst h7
      simp
    · simp [show c < 7 by omega, show ¬ 15 ≤ 8 + c by omega]
  case byte2 =>
    apply bv_ext
    intro c hc
    rw [getLsbD_advance_byte K r 2 hc, getLsbD_advance_below_top K r (by omega), BitVec.getLsbD_xor,
      getLsbD_rotatedByte K (by decide) hc, BitVec.getLsbD_setWidth, BitVec.getLsbD_ushiftRight, decide_eq_true hc,
      decide_eq_true (by omega), show 8 * 2 + c - 15 = 1 + c by omega]
  case byte9 =>
    have htop : (rotatedByte K 9).extractLsb' 4 4 = (rotateKey K).extractLsb' 76 4 := by
      apply bv_ext
      intro c hc
      rw [BitVec.getLsbD_extractLsb', BitVec.getLsbD_extractLsb', getLsbD_rotatedByte K (by decide) (by omega)]
      rw [show 8 * 9 + (4 + c) = 76 + c by omega]
    rw [htop, extractLsb'_rotateKey_top, ← extractLsb'_advance_top K r]
    apply bv_ext
    intro c hc
    rw [getLsbD_advance_byte K r 9 hc, BitVec.getLsbD_append]
    by_cases hlow : c < 4
    · rw [if_pos hlow, BitVec.getLsbD_extractLsb', decide_eq_true hlow, Bool.true_and, getLsbD_rotatedByte K (by decide) (by omega),
        getLsbD_advance_of_only_rotated K r (by omega), Nat.zero_add]
    · rw [if_neg hlow, BitVec.getLsbD_extractLsb', decide_eq_true (by omega), Bool.true_and]
      rw [show 76 + (c - 4) = 8 * 9 + c by omega]

end Sys2Proof.Machine
end

section
/-! PROOF of the commands' frame (10_state.md section 1) and of what one event of the total order does (20_memory.md sections 1, 3 and 4,
30_encoding.md sections 1 and 5, 45_control.md section 1). First what an accepted command writes, then the host's events as one inversion. -/

namespace Sys2Proof.Machine

/-! ### What a command writes -/

/-- A command is accepted while not BUSY, and NOP always (R87). -/
theorem exec_of_accepted {i : Instr} {s : State} (h : s.busy = false ∨ i = .nop) : exec i s = .next (effect i s) := by
  obtain hb | rfl := h
  · exact exec_of_not_busy i hb
  · exact exec_nop s

theorem effect_inputs (i : Instr) (s : State) :
    (effect i s).din = s.din ∧ (effect i s).keyin = s.keyin ∧ (effect i s).irqen = s.irqen ∧ (effect i s).hostOps = s.hostOps ∧
      (effect i s).order = s.order ∧ (effect i s).reply = s.reply ∧ (effect i s).draws = s.draws := by
  cases i <;> exact ⟨rfl, rfl, rfl, rfl, rfl, rfl, rfl⟩

/-- START alone writes the control registers. -/
theorem effect_control {i : Instr} (hi : i ≠ .start) (s : State) :
    (effect i s).fsm = s.fsm ∧ (effect i s).rc = s.rc ∧ (effect i s).done = s.done := by
  cases i with
  | start => exact absurd rfl hi
  | _ => exact ⟨rfl, rfl, rfl⟩

/-- UNLOAD alone writes DOUT. -/
theorem effect_dout {i : Instr} (hi : i ≠ .unload) (s : State) : (effect i s).dout = s.dout := by
  cases i with
  | unload => exact absurd rfl hi
  | _ => rfl

theorem effect_changes_planes {i : Instr} {s : State} (hne : (effect i s).planes ≠ s.planes) :
    i = .start ∨ i = .load ∨ i = .mix ∨ i = .sub ∨ i = .perm := by
  cases i with
  | nop | unload | ldkey | kadv => exact absurd rfl hne
  | start | load | mix | sub | perm => simp

theorem effect_changes_k {i : Instr} {s : State} (hne : (effect i s).k ≠ s.k) : i = .start ∨ i = .ldkey ∨ ∃ r, i = .kadv r := by
  cases i with
  | nop | load | unload | mix | sub | perm => exact absurd rfl hne
  | start | ldkey | kadv => simp

/-- Settles O22: an accepted command writes what its effect lists; one that is turned away records its error. -/
theorem commandsChangeOnlyTheirDestinations : Obligations.CommandsChangeOnlyTheirDestinations := by
  intro i s
  by_cases hacc : s.busy = false ∨ i = .nop
  · obtain ⟨hdin, hkeyin, hirqen, hops, horder, hreply, hdraws⟩ := effect_inputs i s
    refine ⟨effect i s, exec_of_accepted hacc, hdin, hkeyin, hirqen, hops, horder, hreply, hdraws, fun hi => effect_control hi s,
      fun hi => effect_dout hi s, ?planes, ?k, fun _ => effect_err i s⟩
    case planes => rintro (rfl | rfl | rfl | ⟨r, rfl⟩) <;> rfl
    case k =>
      intro hstart hldkey hkadv
      by_contra hne
      obtain hi | hi | ⟨r, hi⟩ := effect_changes_k hne
      · exact hstart hi
      · exact hldkey hi
      · exact hkadv r hi
  · obtain ⟨hb, hi⟩ := not_or.1 hacc
    exact ⟨recorded .cmdBusy s, exec_of_busy hi (Bool.eq_true_of_not_eq_false hb), rfl, rfl, rfl, rfl, rfl, rfl, rfl,
      fun _ => ⟨rfl, rfl, rfl⟩, fun _ => rfl, fun _ => rfl, fun _ _ _ => rfl, fun h => absurd h hacc⟩

/-! ### The host's events -/

/-- The planes, the key register, the engine's registers and DOUT are the same: what the engine and accepted commands alone write. -/
structure SameEngine (s t : State) : Prop where
  planes : t.planes = s.planes
  k : t.k = s.k
  rc : t.rc = s.rc
  fsm : t.fsm = s.fsm
  dout : t.dout = s.dout

/-- A host event leaves the engine's registers alone, or it is the CMD write of a command, accepted while not BUSY. -/
theorem host_step_cases {s t : State} (h : step s = .next t) (hn : s.nextTurn = .host) :
    SameEngine s t ∨ ∃ w i rest, s.hostOps = .wr cmdOffset w :: rest ∧ decode w = .command i ∧ s.busy = false ∧
      t = effect i (s.atHostOp rest) := by
  cases step_next h with
  | engine he => exact absurd (hn.symm.trans he) (by decide)
  | reset hr => exact absurd (hn.symm.trans hr) (by decide)
  | quiet | answered | unmapped | rejected => exact .inl ⟨rfl, rfl, rfl, rfl, rfl⟩
  | stored off v rest _ _ _ hs =>
    obtain ⟨hplanes, hk, hrc, hfsm, hdout⟩ := stores_frame hs
    exact .inl ⟨hplanes, hk, hrc, hfsm, hdout⟩
  | command w i rest _ _ ho hd he =>
    obtain ⟨rfl, -⟩ | ⟨rfl, -, -⟩ | ⟨rfl, hb⟩ := exec_next he
    · exact .inl ⟨rfl, rfl, rfl, rfl, rfl⟩
    · exact .inl ⟨rfl, rfl, rfl, rfl, rfl⟩
    · exact .inr ⟨w, i, rest, ho, hd, hb, rfl⟩

/-- Settles O7: a write to CMD's offset is the execution of its word. -/
theorem stepRunsTheDecodedCommand : Obligations.StepRunsTheDecodedCommand :=
  fun _ _ _ _ hn ho hd => step_command hn ho hd

theorem busRead_hostOps {off : Offset} {s t : State} (h : busRead off s = .next t) : t.hostOps = s.hostOps := by
  obtain ⟨-, ⟨r, -, rfl⟩ | ⟨-, rfl⟩⟩ := busRead_next h <;> rfl

/-- A poll is one read, after which it is done or next again (R88). -/
theorem runHostOp_poll {off : Offset} {mask val x : Word} {s t : State} (h : busRead off s = .next t) (hx : t.reply = some x) :
    runHostOp (.poll off mask val) s =
      if x &&& mask = val then .next t else .next { t with hostOps := .poll off mask val :: s.hostOps } := by
  simp only [runHostOp, h, hx, Option.getD_some, busRead_hostOps h]

/-- Settles O8: each form of operation by what the host's turn runs. -/
theorem hostTurnPerformsItsTransaction : Obligations.HostTurnPerformsItsTransaction := by
  intro s rest hn
  refine ⟨fun off ho => step_host hn ho, fun off v ho => step_host hn ho, ?poll, fun ho => step_quiet hn ho⟩
  case poll =>
    intro off mask val t x ho hread hx
    rw [step_host hn ho, runHostOp_poll hread hx]
    exact ⟨fun heq => if_pos heq, fun hne => if_neg hne⟩

theorem decode_of_decodeTableWord {w : Nat} {i : Instr} (h : decodeTableWord 32 w = some i) :
    decode (BitVec.ofNat 32 (w % 2 ^ 32)) = .command i := by
  rw [decodeTableWord, if_pos (Nat.mod_lt _ (by decide))] at h
  split at h
  · next j hj => rw [hj, Option.some.inj h]
  · cases h

/-- Settles O9: the placed word is a CMD write at the head of the host's operations, and the host is next. -/
theorem placedWordIsTheNextEvent : Obligations.PlacedWordIsTheNextEvent :=
  fun s w _ hd => step_command (s := s.withFetchWord 32 w) rfl rfl (decode_of_decodeTableWord hd)

/-! ### The engine's events -/

/-- A core step is never without effect on fsm or RC: a ROUND step counts or leaves ROUND, the FINAL step leaves FINAL. -/
theorem coreStep_moves {s : State} (hb : s.busy = true) : ((coreStep s).fsm, (coreStep s).rc) ≠ (s.fsm, s.rc) := by
  intro heq
  obtain ⟨hfsm, hrc⟩ := Prod.mk.inj heq
  obtain hr | hf := (State.busy_iff s).1 hb
  · rw [coreStep_round hr, roundStep_fsm, hr] at hfsm
    rw [coreStep_round hr, roundStep_rc] at hrc
    split at hrc
    · exact absurd hrc ((by decide : ∀ r : Round, r + 1 ≠ r) s.rc)
    · next hlast =>
      rw [if_neg hlast] at hfsm
      cases hfsm
  · rw [coreStep_final hf, finalStep_fsm, hf] at hfsm
    cases hfsm

theorem nextTurn_of_order_nil {s : State} (h : s.order = []) : s.nextTurn = if s.busy then .engine else .host := by
  rw [State.nextTurn, h]

/-- Settles O10: the engine's turn is a core step, which is none while not BUSY. -/
theorem engineTurnIsACoreStepExactlyWhileBusy : Obligations.EngineTurnIsACoreStepExactlyWhileBusy := by
  intro s
  refine ⟨fun hn hb => ⟨step_engine hn, coreStep_moves hb⟩, ?idle, ?unordered⟩
  case idle =>
    intro hn hb
    rw [step_engine hn, coreStep_of_not_busy (s := s.beginTurn) hb]
    rfl
  case unordered =>
    intro ho
    rw [nextTurn_of_order_nil ho]
    cases s.busy <;> simp

/-! ### Refusals -/

/-- The offset a host operation accesses. -/
def HostOp.offset : HostOp → Offset
  | .rd off => off
  | .wr off _ => off
  | .poll off _ _ => off

theorem runHostOp_misaligned {op : HostOp} (h : op.offset.toNat % 4 ≠ 0) (s : State) :
    runHostOp op s = .refused (.spellsNoAccess op.offset) := by
  cases op with
  | rd off => exact busRead_misaligned h s
  | wr off v => exact busWrite_misaligned h v s
  | poll off mask val =>
    have hread := busRead_misaligned h s
    simp only [runHostOp, HostOp.offset] at hread ⊢
    rw [hread]

theorem runHostOp_aligned {op : HostOp} (h : op.offset.toNat % 4 = 0) (s : State) : ∃ t, runHostOp op s = .next t := by
  cases op with
  | rd off => exact busRead_total h s
  | wr off v => exact busWrite_total h v s
  | poll off mask val =>
    obtain ⟨t, ht⟩ := busRead_total (off := off) h s
    simp only [runHostOp, ht]
    split
    · exact ⟨_, rfl⟩
    · exact ⟨_, rfl⟩

/-- A step is refused exactly where the host's next operation is at an offset that is no multiple of 4 (R64). -/
theorem step_refused {s : State} {r : Refusal} (h : step s = .refused r) :
    ∃ op rest, s.nextTurn = .host ∧ s.hostOps = op :: rest ∧ op.offset.toNat % 4 ≠ 0 ∧ r = .spellsNoAccess op.offset := by
  cases hn : s.nextTurn with
  | engine => cases (step_engine hn).symm.trans h
  | reset => cases (step_reset hn).symm.trans h
  | host =>
    cases ho : s.hostOps with
    | nil => cases (step_quiet hn ho).symm.trans h
    | cons op rest =>
      rw [step_host hn ho] at h
      by_cases ha : op.offset.toNat % 4 = 0
      · obtain ⟨t, ht⟩ := runHostOp_aligned ha (s.atHostOp rest)
        cases ht.symm.trans h
      · cases (runHostOp_misaligned ha (s.atHostOp rest)).symm.trans h
        exact ⟨op, rest, rfl, rfl, ha, rfl⟩

/-- Settles O11: there is no fault to stop with, and the refusals are those of `step_refused`. -/
theorem stepStopsOnlyAtMisalignedOffsets : Obligations.StepStopsOnlyAtMisalignedOffsets := by
  intro s
  refine ⟨?noFault, ?only, ?every⟩
  case noFault =>
    intro f
    cases f
  case only =>
    intro r hr
    obtain ⟨op, rest, hn, ho, ha, rfl⟩ := step_refused hr
    refine ⟨op.offset, rest, rfl, ha, hn, ?_⟩
    cases op with
    | rd off => exact .inl ho
    | wr off v => exact .inr (.inl ⟨v, ho⟩)
    | poll off mask val => exact .inr (.inr ⟨mask, val, ho⟩)
  case every =>
    rintro off rest m v hn ha (ho | ho | ho)
    · exact (step_host hn ho).trans (runHostOp_misaligned (op := .rd off) ha _)
    · exact (step_host hn ho).trans (runHostOp_misaligned (op := .wr off v) ha _)
    · exact (step_host hn ho).trans (runHostOp_misaligned (op := .poll off m v) ha _)

/-! ### Host addresses -/

/-- Settles O54: an offset is below the window's size, so adding and subtracting the base gives it back. -/
theorem hostAddressReachesItsOffset : Obligations.HostAddressReachesItsOffset := by
  refine ⟨fun off => ?inside, fun a ha => if_neg (by omega)⟩
  case inside =>
    have hlt : off.toNat < 0x1000 := off.isLt
    rw [offsetOf, if_pos (by omega), Nat.add_sub_cancel_left, BitVec.ofNat_toNat, BitVec.setWidth_eq]

end Sys2Proof.Machine
end

section
/-! PROOF of the rules on one encryption (45_control.md sections 1 and 2, 20_memory.md section 4): the engine's two steps, the run from START
to the result, that no host event disturbs it, and that the single-layer commands compute the same. -/

namespace Sys2Proof.Machine

/-! ### The encryption in progress -/

/-- One more round, when RC is that round's number (R164, R194). -/
theorem AfterRounds.after_roundStep {k : Key} {d : Buffer} {n : Nat} {s : State} (h : AfterRounds k d n s)
    (hrc : s.rc = BitVec.ofNat 5 (n + 1)) : AfterRounds k d (n + 1) (roundStep s) := by
  obtain ⟨hk, hlanes⟩ := h
  refine ⟨?key, fun i hi => ?lane⟩
  case key => rw [roundStep_k, hk, hrc, keyAfter]
  case lane => rw [roundStep_planes, lane_round _ _ hi, hlanes i hi, hk, blockAfter]

theorem Encrypting.of_sameEngine {k : Key} {d : Buffer} {s t : State} (h : Encrypting k d s) (he : SameEngine s t) :
    Encrypting k d t := by
  obtain ⟨hplanes, hk, hrc, hfsm, -⟩ := he
  unfold Encrypting AfterRounds at h ⊢
  rwa [hplanes, hk, hrc, hfsm]

theorem Encrypted.of_sameEngine {k : Key} {d : Buffer} {s t : State} (h : Encrypted k d s) (he : SameEngine s t) :
    Encrypted k d t := by
  obtain ⟨hplanes, hk, hrc, hfsm, hdout⟩ := he
  unfold Encrypted at h ⊢
  rwa [hplanes, hk, hrc, hfsm, hdout]

theorem Encrypting.busy {k : Key} {d : Buffer} {s : State} (h : Encrypting k d s) : s.busy = true := by
  obtain ⟨hr, -⟩ | ⟨hf, -⟩ := h
  · exact (State.busy_iff s).2 (.inl hr)
  · exact (State.busy_iff s).2 (.inr hf)

theorem Encrypting.of_round {k : Key} {d : Buffer} {s : State} (h : Encrypting k d s) (hr : s.fsm = .round) :
    s.rc ≠ 0 ∧ AfterRounds k d (s.rc.toNat - 1) s := by
  obtain ⟨-, hpart⟩ | ⟨hf, -⟩ := h
  · exact hpart
  · cases hr.symm.trans hf

theorem Encrypting.of_final {k : Key} {d : Buffer} {s : State} (h : Encrypting k d s) (hf : s.fsm = .final) :
    s.rc = 31 ∧ AfterRounds k d 31 s := by
  obtain ⟨hr, -⟩ | ⟨-, hpart⟩ := h
  · cases hf.symm.trans hr
  · exact hpart

/-- START copies KEYIN and DIN, and no round is done (R192). -/
theorem encrypting_start (s : State) : Encrypting s.keyin s.din (effect .start s) :=
  .inl ⟨rfl, (by decide : (1 : Round) ≠ 0), rfl, fun _ hi => lane_toBitplanes s.din hi⟩

theorem toNat_rc_succ {r : Round} (h : r.toNat < 31) : (r + 1).toNat = r.toNat + 1 := by
  rw [BitVec.toNat_add, show (1 : Round).toNat = 1 from rfl]
  omega

/-- Below 31 a ROUND step counts and stays in ROUND (R194). -/
theorem roundStep_counts {s : State} (h : s.rc.toNat < 31) :
    (roundStep s).rc = s.rc + 1 ∧ (roundStep s).rc.toNat = s.rc.toNat + 1 ∧ (roundStep s).fsm = .round := by
  have hlt := (rc_lt_rounds s.rc).2 h
  have hrc : (roundStep s).rc = s.rc + 1 := by rw [roundStep_rc, if_pos hlt]
  exact ⟨hrc, hrc ▸ toNat_rc_succ h, by rw [roundStep_fsm, if_pos hlt]⟩

/-- At 31 a ROUND step goes on to FINAL (R194). -/
theorem roundStep_last {s : State} (h : s.rc.toNat = 31) : (roundStep s).rc = s.rc ∧ (roundStep s).fsm = .final := by
  have hlast : ¬ s.rc < Config.rounds := by rw [rc_lt_rounds]; omega
  exact ⟨by rw [roundStep_rc, if_neg hlast], by rw [roundStep_fsm, if_neg hlast]⟩

theorem Encrypting.after_roundStep {k : Key} {d : Buffer} {s : State} (h : Encrypting k d s) (hr : s.fsm = .round) :
    Encrypting k d (roundStep s) := by
  obtain ⟨hne, hrounds⟩ := h.of_round hr
  have hpos : s.rc.toNat ≠ 0 := fun h0 => hne (BitVec.eq_of_toNat_eq h0)
  have hprev : s.rc.toNat - 1 + 1 = s.rc.toNat := by omega
  have hnext := hrounds.after_roundStep (by rw [hprev, BitVec.ofNat_toNat, BitVec.setWidth_eq])
  rw [hprev] at hnext
  by_cases hlt : s.rc.toNat < 31
  · obtain ⟨-, hrc, hfsm⟩ := roundStep_counts hlt
    refine .inl ⟨hfsm, fun h0 => ?_, ?_⟩
    · rw [h0] at hrc
      cases hrc
    · rwa [hrc, Nat.add_sub_cancel]
  · have h31 : s.rc.toNat = 31 := by
      have := s.rc.isLt
      omega
    obtain ⟨hrc, hfsm⟩ := roundStep_last h31
    rw [h31] at hnext
    exact .inr ⟨hfsm, hrc.trans (BitVec.eq_of_toNat_eq h31), hnext⟩

theorem Encrypting.after_finalStep {k : Key} {d : Buffer} {s : State} (h : Encrypting k d s) (hf : s.fsm = .final) :
    Encrypted k d (finalStep s) := by
  obtain ⟨hrc, hk, hlanes⟩ := h.of_final hf
  refine ⟨rfl, hrc, hk, fun i hi => ?_⟩
  have hlane : lane (finalStep s).planes i = encryptBlock k (bufLane d i) := by
    rw [finalStep_planes, lane_mix _ _ hi, hlanes i hi, hk, encryptBlock]
  exact ⟨hlane, (bufLane_fromBitplanes _ hi).trans hlane⟩

/-- Settles O30: the FINAL step's lanes by the mixer's and the transpose's lemmas; a running encryption has K_32 there already. -/
theorem finalStepWritesTheOutput : Obligations.FinalStepWritesTheOutput := by
  intro s hf
  exact ⟨finalStep s, coreStep_final hf, rfl, rfl, rfl,
    fun i hi => ⟨lane_mix _ _ hi, bufLane_fromBitplanes _ hi⟩, fun k d h => (h.of_final hf).2.1⟩

/-- Settles O38: a command is turned away while BUSY, other host events leave the engine's registers alone, and the engine's steps
carry the encryption on. -/
theorem runningEncryptionIsUndisturbed : Obligations.RunningEncryptionIsUndisturbed := by
  refine ⟨fun s hb => ⟨_, exec_of_not_busy .start hb, encrypting_start s⟩, fun k d s t he _ hstep => ⟨?host, ?round, ?final⟩⟩
  case host =>
    intro hn
    obtain hsame | ⟨-, -, -, -, -, hb, -⟩ := host_step_cases hstep hn
    · exact ⟨he.of_sameEngine hsame, hsame.fsm, hsame.rc, hsame.dout⟩
    · cases hb.symm.trans he.busy
  case round =>
    intro hn hr
    rw [step_engine hn, coreStep_round (s := s.beginTurn) hr] at hstep
    cases hstep
    have hnow : Encrypting k d s.beginTurn := he
    refine ⟨hnow.after_roundStep hr, rfl, fun hlt => ?_, fun hlast => ?_⟩
    · obtain ⟨-, hrc, hfsm⟩ := roundStep_counts (s := s.beginTurn) hlt
      exact ⟨hfsm, hrc⟩
    · exact (roundStep_last (s := s.beginTurn) hlast).symm
  case final =>
    intro hn hf
    rw [step_engine hn, coreStep_final (s := s.beginTurn) hf] at hstep
    cases hstep
    have hnow : Encrypting k d s.beginTurn := he
    exact ⟨hnow.after_finalStep hf, rfl⟩

/-! ### The 32 core steps after START -/

/-- After START the engine is in ROUND for 31 core steps, and RC counts them (R194). -/
theorem coreSteps_start (s : State) {n : Nat} (hn : n < 31) :
    (coreSteps n (effect .start s)).fsm = .round ∧ (coreSteps n (effect .start s)).rc.toNat = n + 1 := by
  induction n with
  | zero => exact ⟨rfl, rfl⟩
  | succ n ih =>
    obtain ⟨hr, hrc⟩ := ih (by omega)
    obtain ⟨-, hrc', hr'⟩ := roundStep_counts (s := coreSteps n (effect .start s)) (by omega)
    rw [coreSteps_succ, coreStep_round hr]
    exact ⟨hr', by rw [hrc', hrc]⟩

theorem coreSteps_succ_start (s : State) {n : Nat} (hn : n < 31) :
    coreSteps (n + 1) (effect .start s) = roundStep (coreSteps n (effect .start s)) := by
  rw [coreSteps_succ, coreStep_round (coreSteps_start s hn).1]

/-- What START establishes and every ROUND step keeps holds until the FINAL step. -/
theorem coreSteps_start_induction {P : State → Prop} {s : State} (hstart : P (effect .start s))
    (hround : ∀ t, t.fsm = .round → P t → P (roundStep t)) {n : Nat} (hn : n ≤ 31) : P (coreSteps n (effect .start s)) := by
  induction n with
  | zero => exact hstart
  | succ n ih =>
    rw [coreSteps_succ_start s hn]
    exact hround _ (coreSteps_start s hn).1 (ih (by omega))

theorem coreSteps_start_encrypting (s : State) {n : Nat} (hn : n ≤ 31) :
    Encrypting s.keyin s.din (coreSteps n (effect .start s)) :=
  coreSteps_start_induction (P := Encrypting s.keyin s.din) (encrypting_start s) (fun _ hr he => he.after_roundStep hr) hn

theorem coreSteps_start_output (s : State) {n : Nat} (hn : n ≤ 31) :
    (coreSteps n (effect .start s)).done = false ∧ (coreSteps n (effect .start s)).dout = s.dout :=
  coreSteps_start_induction (P := fun t => t.done = false ∧ t.dout = s.dout) ⟨rfl, rfl⟩ (fun _ _ h => h) hn

theorem coreSteps_start_final (s : State) : (coreSteps 31 (effect .start s)).fsm = .final := by
  rw [coreSteps_succ_start s (by decide)]
  exact (roundStep_last (coreSteps_start s (by decide)).2).2

/-- The 32nd core step is the FINAL step. -/
theorem coreSteps_start_done (s : State) :
    coreSteps 32 (effect .start s) = finalStep (coreSteps 31 (effect .start s)) := by
  rw [coreSteps_succ, coreStep_final (coreSteps_start_final s)]

theorem coreSteps_start_encrypted (s : State) : Encrypted s.keyin s.din (coreSteps 32 (effect .start s)) := by
  rw [coreSteps_start_done]
  exact (coreSteps_start_encrypting s (by decide)).after_finalStep (coreSteps_start_final s)

/-- Settles O29: the step's frame holds by its definition, its lanes by `lane_round`, and RC counts from START on. -/
theorem roundStepPerformsOneRound : Obligations.RoundStepPerformsOneRound := by
  refine ⟨fun s hr => ⟨roundStep s, coreStep_round hr, rfl, rfl, rfl, ?counts, ?last, ?busy, fun i hi => lane_round _ _ hi⟩,
    ?fromStart⟩
  case counts => exact fun hlt => (roundStep_counts hlt).2
  case last =>
    intro h31
    obtain ⟨hrc, hfsm⟩ := roundStep_last h31
    exact ⟨by rw [hrc, h31], hfsm⟩
  case busy =>
    rw [State.busy_iff, roundStep_fsm]
    split <;> simp
  case fromStart =>
    intro s t hb hstart
    rw [exec_of_not_busy .start hb] at hstart
    cases hstart
    exact ⟨fun n hn => coreSteps_start s hn, coreSteps_start_final s⟩

/-! ### The run of one encryption -/

/-- What the engine never writes: the inputs, IRQEN, the recorded error and what stands for the surroundings. -/
structure SameSurroundings (s t : State) : Prop where
  din : t.din = s.din
  keyin : t.keyin = s.keyin
  irqen : t.irqen = s.irqen
  err : t.err = s.err
  ecause : t.ecause = s.ecause
  hostOps : t.hostOps = s.hostOps
  order : t.order = s.order
  reply : t.reply = s.reply

theorem coreStep_sameSurroundings (s : State) : SameSurroundings s (coreStep s) := by
  unfold coreStep
  cases s.fsm <;> exact ⟨rfl, rfl, rfl, rfl, rfl, rfl, rfl, rfl⟩

theorem coreSteps_sameSurroundings (n : Nat) (s : State) : SameSurroundings s (coreSteps n s) := by
  induction n with
  | zero => exact ⟨rfl, rfl, rfl, rfl, rfl, rfl, rfl, rfl⟩
  | succ n ih =>
    rw [coreSteps_succ]
    have hstep := coreStep_sameSurroundings (coreSteps n s)
    exact ⟨hstep.din.trans ih.din, hstep.keyin.trans ih.keyin, hstep.irqen.trans ih.irqen, hstep.err.trans ih.err,
      hstep.ecause.trans ih.ecause, hstep.hostOps.trans ih.hostOps, hstep.order.trans ih.order, hstep.reply.trans ih.reply⟩

theorem beginTurn_eq_self {s : State} (ho : s.order = []) (hr : s.reply = none) : s.beginTurn = s := by
  unfold State.beginTurn
  rw [ho, List.tail_nil, ← hr, ← ho]

/-- Where the order fixes nothing and the engine is BUSY, a step is a core step and no more. -/
theorem step_eq_coreStep {s : State} (ho : s.order = []) (hr : s.reply = none) (hb : s.busy = true) :
    step s = .next (coreStep s) := by
  have hn : s.nextTurn = .engine := by rw [nextTurn_of_order_nil ho, if_pos hb]
  rw [step_engine hn, beginTurn_eq_self ho hr]

theorem run_eq_coreSteps {s : State} (ho : s.order = []) (hr : s.reply = none) {n : Nat}
    (hb : ∀ m, m < n → (coreSteps m s).busy = true) : Sys2Proof.core.run n s = .next (coreSteps n s) := by
  induction n with
  | zero => rfl
  | succ n ih =>
    have hsame := coreSteps_sameSurroundings n s
    have hstep : step (coreSteps n s) = .next (coreStep (coreSteps n s)) :=
      step_eq_coreStep (hsame.order.trans ho) (hsame.reply.trans hr) (hb n (Nat.lt_succ_self n))
    rw [run_add (ih fun m hm => hb m (by omega)), run_succ hstep, coreSteps_succ]
    rfl

/-- Settles O37: the first step is START's, and the engine then has its 32 core steps one by one. -/
theorem encryptionFinishesAfterThirtyTwoCoreSteps : Obligations.EncryptionFinishesAfterThirtyTwoCoreSteps := by
  intro s rest hb hn ho hops
  have hstart : step s = .next (effect .start (s.atHostOp rest)) :=
    (step_command hn hops (decode_encode .start)).trans (exec_of_not_busy (s := s.atHostOp rest) .start hb)
  have hbusy : ∀ m, m < 32 → (coreSteps m (effect .start (s.atHostOp rest))).busy = true :=
    fun m hm => (coreSteps_start_encrypting (s.atHostOp rest) (by omega)).busy
  have hrun : ∀ n, n ≤ 32 → Sys2Proof.core.run (n + 1) s = .next (coreSteps n (effect .start (s.atHostOp rest))) := fun n hle =>
    (run_succ hstart).trans (run_eq_coreSteps ho rfl fun m hm => hbusy m (by omega))
  refine ⟨fun n h1 hlt => ?running, ?finished⟩
  case running =>
    obtain ⟨m, rfl⟩ : ∃ m, n = m + 1 := ⟨n - 1, by omega⟩
    obtain ⟨hdone, hdout⟩ := coreSteps_start_output (s.atHostOp rest) (n := m) (by omega)
    exact ⟨_, hrun m (by omega), hbusy m (by omega), hdone, hdout⟩
  case finished =>
    have henc := coreSteps_start_encrypted (s.atHostOp rest)
    have hsame := coreSteps_sameSurroundings 32 (effect .start (s.atHostOp rest))
    refine ⟨_, hrun 32 (by decide), henc, ?done, (State.not_busy_iff _).2 (.inr henc.1), hsame.din, hsame.keyin, hsame.irqen,
      hsame.err, hsame.ecause, hsame.hostOps⟩
    case done =>
      rw [coreSteps_start_done]
      rfl

/-! ### The finished result -/

/-- In every lane DOUT and S hold the same block (R195). -/
theorem Encrypted.dout_eq {k : Key} {d : Buffer} {s : State} (h : Encrypted k d s) : s.dout = fromBitplanes s.planes := by
  obtain ⟨-, -, -, hlanes⟩ := h
  refine buffer_ext_lane fun i hi => ?_
  obtain ⟨hlane, hout⟩ := hlanes i hi
  rw [bufLane_fromBitplanes _ hi, hlane, hout]

/-- Settles O39: the engine has no step, and a host event that is no command, or NOP, leaves the engine's registers alone. -/
theorem finishedResultStaysUntilTheNextCommand : Obligations.FinishedResultStaysUntilTheNextCommand := by
  intro k d s t henc hstep hreset hcmd
  have hkept : Encrypted k d t := by
    cases hn : s.nextTurn with
    | reset => exact absurd hn hreset
    | engine =>
      have hidle : s.beginTurn.busy = false := (State.not_busy_iff s).2 (.inr henc.1)
      rw [step_engine hn, coreStep_of_not_busy hidle] at hstep
      cases hstep
      exact henc
    | host =>
      obtain hsame | ⟨w, i, rest, ho, hd, -, rfl⟩ := host_step_cases hstep hn
      · exact henc.of_sameEngine hsame
      · obtain rfl := hcmd w i rest hn ho hd
        exact henc
  exact ⟨hkept, hkept.dout_eq⟩

theorem bufWord_low (D : Buffer) (i : Nat) : bufWord D (2 * i) = (bufLane D i).extractLsb' 0 32 :=
  BitVec.extractLsb'_append_eq_right.symm

theorem bufWord_high (D : Buffer) (i : Nat) : bufWord D (2 * i + 1) = (bufLane D i).extractLsb' 32 32 :=
  BitVec.extractLsb'_append_eq_left.symm

/-- Byte `m` of lane `i` is bits `8m+7` to `8m` of its block (R8). -/
theorem get_lane_byte (D : Buffer) (i : Nat) {m : Nat} (hm : m < 8) :
    D.get (8 * i + m) = (bufLane D i).extractLsb' (8 * m) 8 := by
  apply bv_ext
  intro b hb
  rw [BitVec.getLsbD_extractLsb', decide_eq_true hb, Bool.true_and, getLsbD_bufLane D i (by omega),
    show (8 * m + b) / 8 = m by omega, show (8 * m + b) % 8 = b by omega]

theorem encryptBlock_zero_zero : encryptBlock 0 0 = 0x5579C1387B228445 := by decide +kernel

/-- Settles O40: the known block by evaluating the cipher; its words and bytes are parts of the lane's block in DOUT. -/
theorem zeroKeyZeroBlockGivesTheKnownAnswer : Obligations.ZeroKeyZeroBlockGivesTheKnownAnswer := by
  refine ⟨encryptBlock_zero_zero, fun s i ⟨_, _, _, hlanes⟩ hi hzero => ?_⟩
  have hout : bufLane s.dout i = 0x5579C1387B228445 := by
    rw [(hlanes i hi).2, hzero, encryptBlock_zero_zero]
  refine ⟨?low, ?high, ?bytes⟩
  case low =>
    rw [readReg, bufWord_low, hout]
    decide
  case high =>
    rw [readReg, bufWord_high, hout]
    decide
  case bytes =>
    have hbytes : ∀ m ∈ List.range 8, s.dout.get (8 * i + m) = (0x5579C1387B228445 : Block).extractLsb' (8 * m) 8 := fun m hm => by
      rw [get_lane_byte s.dout i (List.mem_range.1 hm), hout]
    rw [List.map_congr_left hbytes]
    decide

/-! ### The single-layer commands -/

/-- The effects of accepted commands, one after another. -/
def effects (is : List Instr) (s : State) : State := is.foldl (fun t i => effect i t) s

theorem effects_append (a b : List Instr) (s : State) : effects (a ++ b) s = effects b (effects a s) := List.foldl_append

/-- While not BUSY, commands other than START are all accepted. -/
theorem execAll_eq_effects {is : List Instr} (hstart : ∀ i ∈ is, i ≠ .start) {s : State} (hb : s.busy = false) :
    execAll is s = .next (effects is s) := by
  induction is generalizing s with
  | nil => rfl
  | cons i is ih =>
    obtain ⟨hi, his⟩ := List.forall_mem_cons.1 hstart
    have hb' : (effect i s).busy = false := (State.busy_congr (effect_fsm hi s)).trans hb
    rw [execAll, exec_of_not_busy i hb]
    exact ih his hb'

/-- The state `s` with S and K of `t`. -/
def State.withCipherOf (s t : State) : State := { s with planes := t.planes, k := t.k }

/-- MIX, SUB, PERM, KADV with RC as round number do to S and K what the ROUND step does (R89, R194). -/
theorem effects_roundCommands (s t : State) : effects (roundCommands t.rc) (s.withCipherOf t) = s.withCipherOf (roundStep t) := rfl

/-- The rounds 1 to `n` as commands follow the engine's first `n` core steps (R199). -/
theorem effects_rounds (s : State) {n : Nat} (hn : n ≤ 31) :
    effects ((List.range n).flatMap fun m => roundCommands (BitVec.ofNat 5 (m + 1))) (s.withCipherOf (effect .start s)) =
      s.withCipherOf (coreSteps n (effect .start s)) := by
  induction n with
  | zero => rfl
  | succ n ih =>
    have hrc : BitVec.ofNat 5 (n + 1) = (coreSteps n (effect .start s)).rc := by
      rw [← (coreSteps_start s hn).2, BitVec.ofNat_toNat, BitVec.setWidth_eq]
    rw [List.range_succ, List.flatMap_append, effects_append, ih (by omega), List.flatMap_singleton, hrc, effects_roundCommands,
      coreSteps_succ_start s hn]

theorem effects_load_ldkey (s : State) : effects [.load, .ldkey] s = s.withCipherOf (effect .start s) := rfl

theorem effects_mix_unload (s t : State) :
    effects [.mix, .unload] (s.withCipherOf t) =
      { s with planes := (finalStep t).planes, k := (finalStep t).k, dout := (finalStep t).dout } := rfl

/-- LOAD and LDKEY set S and K as START does, the rounds follow the engine's, and MIX and UNLOAD write what its FINAL step does. -/
theorem effects_layerCommands (s : State) :
    effects layerCommands s =
      { s with
        planes := (coreSteps 32 (effect .start s)).planes
        k := (coreSteps 32 (effect .start s)).k
        dout := (coreSteps 32 (effect .start s)).dout } := by
  rw [layerCommands, effects_append, effects_append, effects_load_ldkey, effects_rounds s (by decide), effects_mix_unload,
    coreSteps_start_done]

/-- Settles O41: commands other than START are accepted one after another, and their effects follow the engine's steps. -/
theorem layerCommandsEqualOneEncryption : Obligations.LayerCommandsEqualOneEncryption := by
  refine ⟨fun s hb => ?whole, fun s r hb => ?oneRound⟩
  case whole =>
    obtain ⟨hfsm, hrc, -, -⟩ := coreSteps_start_encrypted s
    have hnoStart : ∀ i ∈ layerCommands, i ≠ .start := by decide +kernel
    refine ⟨_, _, execAll_eq_effects hnoStart hb, exec_of_not_busy .start hb, effects_layerCommands s, hfsm, hrc, ?done⟩
    case done =>
      rw [coreSteps_start_done]
      rfl
  case oneRound =>
    have hnoStart : ∀ i ∈ roundCommands r, i ≠ .start := by simp [roundCommands]
    rw [execAll_eq_effects hnoStart hb, coreStep_round rfl]
    rfl

end Sys2Proof.Machine
end

section
/-! PROOF of the control state's invariant (10_state.md sections 4 and 7, 60_exceptions.md section 2): it holds in every idle state without an
error, and each event keeps it. -/

namespace Sys2Proof.Machine

theorem State.inv_of_idle {s : State} (hfsm : s.fsm = .idle) (hrc : s.rc = 0) (hdone : s.done = false) (herr : s.err = false)
    (hcause : s.ecause = 0) : s.Inv := by
  unfold State.Inv
  rw [hfsm, hrc, hdone, herr, hcause]
  decide

/-- Settles O35: the reset state is idle, with no error. -/
theorem controlStateIsLegalAtReset : Obligations.ControlStateIsLegalAtReset := State.inv_of_idle rfl rfl rfl rfl rfl

theorem resetEvent_inv (s : State) : (resetEvent s).Inv := State.inv_of_idle rfl rfl rfl rfl rfl

/-- The invariant is about fsm, RC, DONE, ERR and ECAUSE alone. -/
theorem State.Inv.congr {s t : State} (h : s.Inv) (hfsm : t.fsm = s.fsm) (hrc : t.rc = s.rc) (hdone : t.done = s.done)
    (herr : t.err = s.err) (hcause : t.ecause = s.ecause) : t.Inv := by
  unfold State.Inv
  rwa [hfsm, hrc, hdone, herr, hcause]

/-- With ERR set the first cause stays, which is a code already; else the new cause is recorded, which is one. -/
theorem State.Inv.after_recorded {s : State} (h : s.Inv) (c : Cause) : (recorded c s).Inv := by
  obtain ⟨hidle, hround, hfinal, hfin, hdone, herr, hcode⟩ := h
  have hcause : (recorded c s).ecause ≠ 0 ∧ (recorded c s).ecause.toNat ≤ 5 := by
    rw [recorded_ecause]
    split
    · next he => exact ⟨fun h0 => absurd (he.symm.trans (herr.2 h0)) (by decide), hcode⟩
    · exact ⟨c.code_range.1, c.code_range.2.2⟩
  exact ⟨hidle, hround, hfinal, hfin, hdone, ⟨nofun, fun h0 => absurd h0 hcause.1⟩, hcause.2⟩

theorem State.Inv.after_effect {s : State} (h : s.Inv) (i : Instr) : (effect i s).Inv := by
  obtain ⟨herr, hcause⟩ := effect_err i s
  by_cases hi : i = .start
  · subst hi
    obtain ⟨-, -, -, -, -, hflag, hcode⟩ := h
    exact ⟨nofun, fun _ => (by decide : (1 : Round) ≠ 0), nofun, nofun, nofun, hflag, hcode⟩
  · obtain ⟨hfsm, hrc, hdone⟩ := effect_control hi s
    exact h.congr hfsm hrc hdone herr hcause

theorem State.Inv.after_exec {i : Instr} {s t : State} (h : s.Inv) (he : exec i s = .next t) : t.Inv := by
  obtain ⟨rfl, -⟩ | ⟨rfl, -, -⟩ | ⟨rfl, -⟩ := exec_next he
  · exact h
  · exact h.after_recorded .cmdBusy
  · exact h.after_effect i

/-- A ROUND step below 31 counts on from a round number that is not 0; the last one leaves RC at 31, where FINAL needs it. -/
theorem State.Inv.after_roundStep {s : State} (h : s.Inv) (hr : s.fsm = .round) : (roundStep s).Inv := by
  obtain ⟨-, -, -, -, hdone, herr, hcode⟩ := h
  have hnotDone : s.done ≠ true := fun hd => by cases hr.symm.trans (hdone hd)
  by_cases hlt : s.rc.toNat < 31
  · obtain ⟨-, hrc, hfsm⟩ := roundStep_counts hlt
    have hne : (roundStep s).rc ≠ 0 := fun h0 => by
      rw [h0] at hrc
      cases hrc
    unfold State.Inv
    rw [hfsm]
    exact ⟨nofun, fun _ => hne, nofun, nofun, fun hd => absurd hd hnotDone, herr, hcode⟩
  · have h31 : s.rc = 31 := rc_eq_of_not_lt (mt (rc_lt_rounds s.rc).1 hlt)
    obtain ⟨hrc, hfsm⟩ := roundStep_last (s := s) (by rw [h31]; rfl)
    unfold State.Inv
    rw [hfsm, hrc]
    exact ⟨nofun, nofun, fun _ => h31, nofun, fun hd => absurd hd hnotDone, herr, hcode⟩

theorem State.Inv.after_finalStep {s : State} (h : s.Inv) (hf : s.fsm = .final) : (finalStep s).Inv := by
  obtain ⟨-, -, hfinal, -, -, herr, hcode⟩ := h
  exact ⟨nofun, nofun, nofun, fun _ => hfinal hf, fun _ => rfl, herr, hcode⟩

theorem State.Inv.after_coreStep {s : State} (h : s.Inv) : (coreStep s).Inv := by
  cases hb : s.busy with
  | false => rwa [coreStep_of_not_busy hb]
  | true =>
    obtain hr | hf := (State.busy_iff s).1 hb
    · rw [coreStep_round hr]
      exact h.after_roundStep hr
    · rw [coreStep_final hf]
      exact h.after_finalStep hf

/-- A STATUS write clears DONE alone, or ERR together with ECAUSE (R40). -/
theorem State.Inv.after_writeStatus {s : State} (h : s.Inv) (v : Word) : (s.writeStatus v).Inv := by
  obtain ⟨hidle, hround, hfinal, hfin, hdone, herr, hcode⟩ := h
  refine ⟨hidle, hround, hfinal, hfin, fun hd => hdone (Bool.and_eq_true_iff.1 hd).1, ?error, ?code⟩ <;>
    rw [State.writeStatus_ecause]
  case error =>
    rw [State.writeStatus_err]
    cases v.getLsbD 2
    · simpa using herr
    · simp
  case code =>
    split
    · exact Nat.zero_le 5
    · exact hcode

theorem State.Inv.after_stores {off : Offset} {v : Word} {s t : State} (h : s.Inv) (hs : Stores off v s t) : t.Inv := by
  cases hs with
  | status => exact h.after_writeStatus v
  | din | key0 | key1 | key2 | ctrl => exact h

/-- Settles O36: each event keeps the invariant. -/
theorem everyStepKeepsTheControlStateLegal : Obligations.EveryStepKeepsTheControlStateLegal := by
  intro s t h hstep
  cases step_next hstep with
  | engine => exact State.Inv.after_coreStep (s := s.beginTurn) h
  | reset => exact resetEvent_inv s.beginTurn
  | quiet => exact h
  | answered => exact h
  | unmapped rest => exact State.Inv.after_recorded (s := s.atHostOp rest) h .busUnmapped
  | rejected c rest => exact State.Inv.after_recorded (s := s.atHostOp rest) h c
  | stored off v rest _ _ _ hs => exact State.Inv.after_stores (s := s.atHostOp rest) h hs
  | command w i rest _ _ _ _ he => exact State.Inv.after_exec (s := s.atHostOp rest) h he

end Sys2Proof.Machine
end

section
/-! PROOF of who writes what (10_state.md sections 2, 3, 4, 6 and 7) and of what an error leaves (60_exceptions.md section 3): for each piece of
state, the events that change it. -/

namespace Sys2Proof.Machine

/-! ### The round counter -/

theorem coreStep_changes_rc {s : State} (hne : (coreStep s).rc ≠ s.rc) :
    s.fsm = .round ∧ s.rc.toNat < 31 ∧ (coreStep s).rc.toNat = s.rc.toNat + 1 := by
  cases hb : s.busy with
  | false => exact absurd (congrArg State.rc (coreStep_of_not_busy hb)) hne
  | true =>
    obtain hr | hf := (State.busy_iff s).1 hb
    · rw [coreStep_round hr] at hne ⊢
      by_cases hlt : s.rc.toNat < 31
      · exact ⟨hr, hlt, (roundStep_counts hlt).2.1⟩
      · exact absurd (if_neg (mt (rc_lt_rounds s.rc).1 hlt)) hne
    · exact absurd (congrArg State.rc (coreStep_final hf)) hne

/-- Settles O32: among the host's events only START writes RC, among the engine's only the counting ROUND step. -/
theorem onlyStartRoundStepAndResetWriteTheRoundCounter : Obligations.OnlyStartRoundStepAndResetWriteTheRoundCounter := by
  intro s t h hne
  cases hn : s.nextTurn with
  | engine =>
    rw [step_engine hn] at h
    cases h
    exact .inr (.inl ⟨rfl, coreStep_changes_rc (s := s.beginTurn) hne⟩)
  | reset =>
    rw [step_reset hn] at h
    cases h
    exact .inr (.inr ⟨rfl, rfl⟩)
  | host =>
    obtain hsame | ⟨w, i, rest, ho, hd, -, rfl⟩ := host_step_cases h hn
    · exact absurd hsame.rc hne
    · obtain rfl : i = .start := by
        by_contra hi
        exact hne (effect_control hi _).2.1
      obtain rfl : w = encode .start := eq_encode_of_decode hd
      exact .inl ⟨rfl, ⟨rest, ho⟩, rfl, rfl⟩

/-! ### DONE -/

theorem coreStep_done {s : State} : (coreStep s).done = s.done ∨ ((coreStep s).done = true ∧ s.fsm = .final) := by
  cases hf : s.fsm with
  | final => exact .inr ⟨by rw [coreStep_final hf]; rfl, rfl⟩
  | round => exact .inl (by rw [coreStep_round hf]; rfl)
  | idle => exact .inl (by rw [coreStep_of_not_busy ((State.not_busy_iff s).2 (.inl hf))])
  | done => exact .inl (by rw [coreStep_of_not_busy ((State.not_busy_iff s).2 (.inr hf))])

theorem stores_done {off : Offset} {v : Word} {s t : State} (h : Stores off v s t) :
    t.done = s.done ∨ (t.done = false ∧ off = 0x324 ∧ v.getLsbD 1 = true) := by
  cases h with
  | status hr =>
    have hoff : off = 0x324 := regAt_some hr
    rw [State.writeStatus_done]
    cases hv : v.getLsbD 1
    · exact .inl (Bool.and_true s.done)
    · exact .inr ⟨Bool.and_false s.done, hoff, rfl⟩
  | din | key0 | key1 | key2 | ctrl => exact .inl rfl

theorem exec_done {i : Instr} {s t : State} (h : exec i s = .next t) : t.done = s.done ∨ (t.done = false ∧ i = .start) := by
  obtain ⟨rfl, -⟩ | ⟨rfl, -, -⟩ | ⟨rfl, -⟩ := exec_next h
  · exact .inl rfl
  · exact .inl rfl
  · by_cases hi : i = .start
    · subst hi
      exact .inr ⟨rfl, rfl⟩
    · exact .inl (effect_control hi s).2.2

/-- The events that clear DONE (R37): reset, START, and a STATUS write with bit 1 set, which leaves fsm alone. -/
def ClearsDone (s t : State) : Prop :=
  s.nextTurn = .reset ∨
  (s.nextTurn = .host ∧ ∃ rest, s.hostOps = .wr 0x328 0x00000001 :: rest) ∨
  (s.nextTurn = .host ∧ t.fsm = s.fsm ∧ ∃ v rest, s.hostOps = .wr 0x324 v :: rest ∧ v.getLsbD 1 = true)

/-- Everything a step can do to DONE. -/
theorem step_done {s t : State} (h : step s = .next t) :
    t.done = s.done ∨ (t.done = true ∧ s.nextTurn = .engine ∧ s.fsm = .final) ∨ (t.done = false ∧ ClearsDone s t) := by
  cases step_next h with
  | engine hn =>
    obtain hsame | ⟨hset, hf⟩ := coreStep_done (s := s.beginTurn)
    · exact .inl hsame
    · exact .inr (.inl ⟨hset, hn, hf⟩)
  | reset hn => exact .inr (.inr ⟨rfl, .inl hn⟩)
  | quiet | answered | unmapped | rejected => exact .inl rfl
  | stored off v rest _ hn ho hs =>
    obtain hsame | ⟨hclear, rfl, hv⟩ := stores_done hs
    · exact .inl hsame
    · obtain ⟨-, -, -, hfsm, -⟩ := stores_frame hs
      exact .inr (.inr ⟨hclear, .inr (.inr ⟨hn, hfsm, v, rest, ho, hv⟩)⟩)
  | command w i rest _ hn ho hd he =>
    obtain hsame | ⟨hclear, rfl⟩ := exec_done he
    · exact .inl hsame
    · obtain rfl : w = encode .start := eq_encode_of_decode hd
      exact .inr (.inr ⟨hclear, .inr (.inl ⟨hn, rest, ho⟩)⟩)

/-- Settles O33: `step_done`, for a step that sets DONE and for one that clears it. -/
theorem onlyListedEventsWriteDone : Obligations.OnlyListedEventsWriteDone := by
  intro s t h
  obtain hsame | ⟨hset, hn, hf⟩ | ⟨hclear, hevent⟩ := step_done h
  · rw [hsame]
    exact ⟨fun h0 h1 => absurd (h0.symm.trans h1) Bool.false_ne_true, fun h1 h0 => absurd (h0.symm.trans h1) Bool.false_ne_true⟩
  · exact ⟨fun _ _ => ⟨hn, hf⟩, fun _ h0 => absurd (h0.symm.trans hset) Bool.false_ne_true⟩
  · exact ⟨fun _ h1 => absurd (hclear.symm.trans h1) Bool.false_ne_true, fun _ _ => hevent⟩

/-! ### The datapath -/

theorem coreStep_changes_planes {s : State} (hne : (coreStep s).planes ≠ s.planes) : s.busy = true := by
  by_contra hb
  exact hne (congrArg State.planes (coreStep_of_not_busy (Bool.eq_false_of_not_eq_true hb)))

theorem coreStep_changes_k {s : State} (hne : (coreStep s).k ≠ s.k) : s.fsm = .round := by
  unfold coreStep at hne
  cases hf : s.fsm with
  | round => rfl
  | idle | final | done =>
    rw [hf] at hne
    exact absurd rfl hne

theorem coreStep_changes_dout {s : State} (hne : (coreStep s).dout ≠ s.dout) : s.fsm = .final := by
  unfold coreStep at hne
  cases hf : s.fsm with
  | final => rfl
  | idle | round | done =>
    rw [hf] at hne
    exact absurd rfl hne

/-- DIN and KEYIN change only by reset and by what a host write stores. -/
theorem step_inputs {s t : State} (h : step s = .next t) (hreset : s.nextTurn ≠ .reset) :
    (t.din = s.din ∧ t.keyin = s.keyin) ∨
      (s.nextTurn = .host ∧ ∃ off v rest, s.hostOps = .wr off v :: rest ∧ Stores off v (s.atHostOp rest) t) := by
  cases step_next h with
  | engine => exact .inl ⟨(coreStep_sameSurroundings s.beginTurn).din, (coreStep_sameSurroundings s.beginTurn).keyin⟩
  | reset hn => exact absurd hn hreset
  | quiet | answered | unmapped | rejected => exact .inl ⟨rfl, rfl⟩
  | stored off v rest _ hn ho hs => exact .inr ⟨hn, off, v, rest, ho, hs⟩
  | command w i rest _ _ _ _ he =>
    obtain ⟨rfl, -⟩ | ⟨rfl, -, -⟩ | ⟨rfl, -⟩ := exec_next he
    · exact .inl ⟨rfl, rfl⟩
    · exact .inl ⟨rfl, rfl⟩
    · obtain ⟨hdin, hkeyin, -⟩ := effect_inputs i (s.atHostOp rest)
      exact .inl ⟨hdin, hkeyin⟩

theorem stores_changes_din {off : Offset} {v : Word} {s t : State} (h : Stores off v s t) (hne : t.din ≠ s.din) :
    off.toNat < 0x100 := by
  cases h with
  | din n hr => exact (regAt_some hr).1
  | key0 | key1 | key2 | ctrl | status => exact absurd rfl hne

theorem stores_changes_keyin {off : Offset} {v : Word} {s t : State} (h : Stores off v s t) (hne : t.keyin ≠ s.keyin) :
    0x300 ≤ off.toNat ∧ off.toNat ≤ 0x308 := by
  have hplace : off = 0x300 ∨ off = 0x304 ∨ off = 0x308 := by
    cases h with
    | key0 hr => exact .inl (regAt_some hr)
    | key1 hr => exact .inr (.inl (regAt_some hr))
    | key2 hr => exact .inr (.inr (regAt_some hr))
    | din | ctrl | status => exact absurd rfl hne
  obtain rfl | rfl | rfl := hplace <;> decide

/-- A step that changes a field which host events leave alone, but for accepted commands, is the engine's or is such a command. -/
theorem step_changes {α : Type} (field : State → α) {s t : State} (h : step s = .next t) (hreset : s.nextTurn ≠ .reset)
    (hsame : SameEngine s t → field t = field s) (hne : field t ≠ field s) :
    (s.nextTurn = .engine ∧ t = coreStep s.beginTurn) ∨
      (s.nextTurn = .host ∧ s.busy = false ∧ ∃ w i rest, s.hostOps = .wr 0x328 w :: rest ∧ decode w = .command i ∧
        t = effect i (s.atHostOp rest)) := by
  cases hn : s.nextTurn with
  | reset => exact absurd hn hreset
  | engine =>
    rw [step_engine hn] at h
    cases h
    exact .inl ⟨rfl, rfl⟩
  | host =>
    obtain hs | ⟨w, i, rest, ho, hd, hb, ht⟩ := host_step_cases h hn
    · exact absurd (hsame hs) hne
    · exact .inr ⟨rfl, hb, w, i, rest, ho, hd, ht⟩

/-- Settles O34: for each piece of the datapath, which core steps and which accepted commands or writes change it. -/
theorem onlyListedEventsWriteTheDatapath : Obligations.OnlyListedEventsWriteTheDatapath := by
  intro s t h hreset
  refine ⟨fun hne => ?planes, fun hne => ?k, fun hne => ?dout, fun hne => ?din, fun hne => ?keyin⟩
  case planes =>
    obtain ⟨hn, rfl⟩ | ⟨hn, hb, w, i, rest, ho, hd, rfl⟩ := step_changes State.planes h hreset SameEngine.planes hne
    · exact .inl ⟨hn, coreStep_changes_planes (s := s.beginTurn) hne⟩
    · exact .inr ⟨hn, hb, w, i, rest, ho, hd, effect_changes_planes (s := s.atHostOp rest) hne⟩
  case k =>
    obtain ⟨hn, rfl⟩ | ⟨hn, hb, w, i, rest, ho, hd, rfl⟩ := step_changes State.k h hreset SameEngine.k hne
    · exact .inl ⟨hn, coreStep_changes_k (s := s.beginTurn) hne⟩
    · exact .inr ⟨hn, hb, w, i, rest, ho, hd, effect_changes_k (s := s.atHostOp rest) hne⟩
  case dout =>
    obtain ⟨hn, rfl⟩ | ⟨hn, hb, w, i, rest, ho, hd, rfl⟩ := step_changes State.dout h hreset SameEngine.dout hne
    · exact .inl ⟨hn, coreStep_changes_dout (s := s.beginTurn) hne⟩
    · obtain rfl : i = .unload := by
        by_contra hi
        exact hne (effect_dout hi _)
      obtain rfl : w = encode .unload := eq_encode_of_decode hd
      exact .inr ⟨hn, hb, rest, ho⟩
  case din =>
    obtain ⟨hdin, -⟩ | ⟨hn, off, v, rest, ho, hs⟩ := step_inputs h hreset
    · exact absurd hdin hne
    · exact ⟨hn, off, v, rest, ho, stores_changes_din hs hne⟩
  case keyin =>
    obtain ⟨-, hkeyin⟩ | ⟨hn, off, v, rest, ho, hs⟩ := step_inputs h hreset
    · exact absurd hkeyin hne
    · exact ⟨hn, off, v, rest, ho, stores_changes_keyin hs hne⟩

/-! ### Errors -/

/-- What a step leaves that records an error where none was: a code of R221, and the CORE as it was (R222, R225). -/
def RaisesError (s t : State) : Prop :=
  s.nextTurn = .host ∧ 1 ≤ t.ecause.toNat ∧ t.ecause.toNat ≤ 5 ∧
    t = { s with err := true, ecause := t.ecause, hostOps := t.hostOps, order := t.order, reply := t.reply }

theorem raisesError_recorded {s : State} (hn : s.nextTurn = .host) (herr : s.err = false) (c : Cause) (rest : List HostOp)
    (x : Option Word) : RaisesError s { recorded c (s.atHostOp rest) with reply := x } := by
  have hcause : (recorded c (s.atHostOp rest)).ecause = c.code := if_neg (Bool.eq_false_iff.1 herr)
  refine ⟨hn, ?low, ?high, rfl⟩
  case low => exact hcause ▸ c.code_range.2.1
  case high => exact hcause ▸ c.code_range.2.2

theorem stores_err {off : Offset} {v : Word} {s t : State} (h : Stores off v s t) (herr : s.err = false) : t.err = false := by
  cases h with
  | status => rw [State.writeStatus_err, herr, Bool.false_and]
  | din | key0 | key1 | key2 | ctrl => exact herr

/-- Settles O57: the events that can set ERR are those that record an error, and they do nothing else. -/
theorem errorsDisturbNothing : Obligations.ErrorsDisturbNothing := by
  intro s t h herr herr'
  show RaisesError s t
  have noError {p : Prop} (h0 : t.err = false) : p := by cases h0.symm.trans herr'
  cases step_next h with
  | engine => exact noError ((coreStep_sameSurroundings s.beginTurn).err.trans herr)
  | reset => exact noError rfl
  | quiet | answered => exact noError herr
  | unmapped rest hn => exact raisesError_recorded hn herr .busUnmapped rest (some 0)
  | rejected c rest hn => exact raisesError_recorded hn herr c rest none
  | stored off v rest _ _ _ hs => exact noError (stores_err hs herr)
  | command w i rest _ hn _ _ he =>
    obtain ⟨rfl, -⟩ | ⟨rfl, -, -⟩ | ⟨rfl, -⟩ := exec_next he
    · exact noError herr
    · exact raisesError_recorded hn herr .cmdBusy rest none
    · exact noError ((effect_err i _).1.trans herr)

end Sys2Proof.Machine
end

section
/-! PROOF of what the host sees (10_state.md section 8), of the completion interrupt (60_exceptions.md section 4) and of what a reset event
draws (70_reset_and_hazards.md section 1). -/

namespace Sys2Proof.Machine

/-! ### What the host sees -/

/-- What the host reads at every mapped offset is the same in both states. -/
def ReadsAgree (s t : State) : Prop :=
  ∀ (off : Offset) (x : Word), off.toNat % 4 = 0 → regAt off ≠ none →
    busRead off s = .next { s with reply := some x } → busRead off t = .next { t with reply := some x }

theorem ReadsAgree.readReg_eq {s t : State} (h : ReadsAgree s t) {off : Offset} {r : Reg} (ha : off.toNat % 4 = 0)
    (hr : regAt off = some r) : readReg r s = readReg r t :=
  busRead_answer_unique (h off _ ha (by rw [hr]; nofun) (busRead_mapped ha hr s)) (busRead_mapped ha hr t)

/-- Buffers with equal words are equal (R54, R55). -/
theorem buffer_ext_words {D E : Buffer} (h : ∀ n, n < 64 → bufWord D n = bufWord E n) : D = E :=
  buffer_ext_lane fun i hi => by rw [bufLane, bufLane, h (2 * i + 1) (by omega), h (2 * i) (by omega)]

/-- The engine state that a code of R27 stands for. -/
def Fsm.ofCode (c : BitVec 2) : Fsm := if c = 0 then .idle else if c = 1 then .round else if c = 2 then .final else .done

theorem Fsm.ofCode_code : Function.LeftInverse Fsm.ofCode Fsm.code := fun f => by cases f <;> rfl

theorem ctrlWord_bit_irqen (s : State) : s.ctrlWord.getLsbD 0 = s.irqen := by
  rw [State.ctrlWord, getLsbD_flagWord, decide_eq_true rfl, Bool.true_and]

/-- Settles O55: each piece of the CORE's state from the registers that hold it. -/
theorem nothingIsHiddenFromTheHost : Obligations.NothingIsHiddenFromTheHost := by
  intro s t h
  have hagree : ReadsAgree s t := h
  have hstatus : s.statusWord = t.statusWord := hagree.readReg_eq (off := 0x324) (r := .status) (by decide) (by decide)
  have hctrl : s.ctrlWord = t.ctrlWord := hagree.readReg_eq (off := 0x320) (r := .ctrl) (by decide) (by decide)
  refine ⟨?planes, ?k, ?rc, ?fsm, ?din, ?dout, ?keyin, ?irqen, ?done, ?err, ?ecause⟩
  case planes =>
    exact Arr.ext_get fun j hj => hagree.readReg_eq (aligned_ofNat (n := 0x200 + 4 * j) (by omega) (by omega)) (regAt_plane hj)
  case k =>
    exact key_ext_words (hagree.readReg_eq (off := 0x310) (r := .kreg0) (by decide) (by decide))
      (hagree.readReg_eq (off := 0x314) (r := .kreg1) (by decide) (by decide))
      (hagree.readReg_eq (off := 0x318) (r := .kreg2) (by decide) (by decide))
  case keyin =>
    exact key_ext_words (hagree.readReg_eq (off := 0x300) (r := .key0) (by decide) (by decide))
      (hagree.readReg_eq (off := 0x304) (r := .key1) (by decide) (by decide))
      (hagree.readReg_eq (off := 0x308) (r := .key2) (by decide) (by decide))
  case din =>
    exact buffer_ext_words fun n hn => hagree.readReg_eq (aligned_ofNat (n := 4 * n) (by omega) (by omega)) (regAt_dinw hn)
  case dout =>
    exact buffer_ext_words fun n hn => hagree.readReg_eq (aligned_ofNat (n := 0x100 + 4 * n) (by omega) (by omega)) (regAt_doutw hn)
  case rc => rw [← statusWord_rc s, hstatus, statusWord_rc]
  case fsm => exact Fsm.ofCode_code.injective (by rw [← statusWord_fsm s, hstatus, statusWord_fsm])
  case irqen => rw [← ctrlWord_bit_irqen s, hctrl, ctrlWord_bit_irqen]
  case done => rw [← statusWord_bit_done s, hstatus, statusWord_bit_done]
  case err => rw [← statusWord_bit_err s, hstatus, statusWord_bit_err]
  case ecause => rw [← statusWord_ecause s, hstatus, statusWord_ecause]

/-! ### The completion interrupt -/

theorem irq_of_no_done {s : State} (h : s.done = false) : s.irq = false := by rw [State.irq, h, Bool.and_false]

theorem irq_of_no_irqen {s : State} (h : s.irqen = false) : s.irq = false := by rw [State.irq, h, Bool.false_and]

/-- Settles O58: each listed event clears DONE or IRQEN, of which irq is made. -/
theorem irqIsLevelAndClearedAsListed : Obligations.IrqIsLevelAndClearedAsListed := by
  intro s
  refine ⟨rfl, statusWord_bit_irq s, fun c => by rw [raiseError_eq]; rfl, ?status, ?start, ?ctrl, irq_of_no_done (resetEvent_done s)⟩
  case status =>
    intro v t hv h
    rw [busWrite_status] at h
    cases h
    exact irq_of_no_done (by rw [State.writeStatus_done, hv, Bool.not_true, Bool.and_false])
  case start =>
    intro t hb h
    rw [exec_of_not_busy .start hb] at h
    cases h
    exact effect_start_irq s
  case ctrl =>
    intro v t hv h
    rw [busWrite_ctrl] at h
    cases h
    exact irq_of_no_irqen hv

/-! ### The draw of a reset event -/

/-- Settles O60: the event draws by its definition, and the engine is idle after it, so every command is accepted. -/
theorem resetEventDrawsTheDatapath : Obligations.ResetEventDrawsTheDatapath := by
  intro s hn
  have hb : (resetEvent s.beginTurn).busy = false := resetEvent_busy _
  exact ⟨resetEvent s.beginTurn, step_reset hn, rfl, rfl, rfl, fun _ => Arr.get_tab _, rfl, rfl, fun _ => Arr.get_tab _,
    fun _ => Arr.get_tab _, resetEvent_inv _, ⟨_, exec_of_not_busy .start hb, encrypting_start _, rfl⟩,
    exec_of_not_busy .load hb, exec_of_not_busy .ldkey hb, exec_of_not_busy .unload hb, exec_of_not_busy .mix hb,
    exec_of_not_busy .sub hb, exec_of_not_busy .perm hb, fun r => exec_of_not_busy (.kadv r) hb⟩

end Sys2Proof.Machine
end
